-- ==== Sys2Proof/Word.lean ====
section
/-! DEFINITION. The widths of the engine's data: words, bytes, block-memory addresses and command words. -/

namespace Sys2Proof

/-- A data word, 64 bits (R6, R7). -/
abbrev Word := BitVec 64

/-- A byte, 8 bits (R7). -/
abbrev Byte := BitVec 8

/-- A block-memory byte address as a command carries it, 16 bits (R6, R50). -/
abbrev Addr := BitVec 16

/-- A command word `cmd[95:0]` (R70). -/
abbrev Command := BitVec 96

/-- `add64(a, b) = (a + b) mod 2^64`: the carry out is dropped (R8, R146). -/
abbrev add64 (a b : Word) : Word := a + b

end Sys2Proof
end

