-- ==== Sys2Proof/Syntax.lean ====
section
/-! DEFINITION. The fourteen commands as terms: one constructor of `Instr` per row of the opcode table (R73), its
arguments the operands of R78. -/

namespace Sys2Proof

/-- The fourteen mnemonics of R73. -/
inductive Opcode where
  | nop | rst | rdst | setn | ldh | ldt | rdh | rdt | wrb | wrw | rdb | rdw | sth | proc
  deriving DecidableEq, Repr

/-- The tweak words by their register number: T[0] is index 0, T[1] is index 1 (R25). -/
inductive TweakIndex where
  | t0 | t1
  deriving DecidableEq, Repr

/-- A command. An index, a code or a count is a `Nat` that `WellFormed` bounds by its field's width. -/
inductive Instr where
  /-- `nop` (R91). -/
  | nop
  /-- `rst` (R92). -/
  | rst
  /-- `rdst` (R93). -/
  | rdst
  /-- `setn`, the variant code `idx[1:0]` (R94); the code 3 is a term too, since it decodes and then faults. -/
  | setn (code : Nat)
  /-- `ldh i, v` (R95). -/
  | ldh (i : Nat) (v : Word)
  /-- `ldt j, v` (R96). -/
  | ldt (j : TweakIndex) (v : Word)
  /-- `rdh i` (R97). -/
  | rdh (i : Nat)
  /-- `rdt j` (R98). -/
  | rdt (j : TweakIndex)
  /-- `wrb a, b` (R110). -/
  | wrb (a : Addr) (b : Byte)
  /-- `wrw a, v` (R111). -/
  | wrw (a : Addr) (v : Word)
  /-- `rdb a` (R112). -/
  | rdb (a : Addr)
  /-- `rdw a` (R113). -/
  | rdw (a : Addr)
  /-- `sth a` (R114). -/
  | sth (a : Addr)
  /-- `proc ptr, cnt, add` (R170), in the assembler's operand order (R80). -/
  | proc (ptr : Addr) (cnt : Nat) (add : Byte)
  deriving DecidableEq, Repr

end Sys2Proof
end

