-- ==== Sys2Proof/WellFormed.lean ====
section
/-! DEFINITION. When a term of `Instr` is a command: every operand fits the field that carries it (R71, R78). -/

namespace Sys2Proof

/-- Each `Nat` operand lies in the range of its field: the variant code has 2 bits, the H index 4, CNT 16 (R78). The
other operands have their field's width as their type. -/
def Instr.wellFormed : Instr → Bool
  | .nop => true
  | .rst => true
  | .rdst => true
  | .setn code => decide (code < 4)
  | .ldh i _ => decide (i < 16)
  | .ldt _ _ => true
  | .rdh i => decide (i < 16)
  | .rdt _ => true
  | .wrb _ _ => true
  | .wrw _ _ => true
  | .rdb _ => true
  | .rdw _ => true
  | .sth _ => true
  | .proc _ cnt _ => decide (cnt < 65536)

/-- `i` is a command of the engine. -/
abbrev Instr.WellFormed (i : Instr) : Prop := i.wellFormed = true

end Sys2Proof
end

