-- ==== Sys2Proof/Decode.lean ====
section
/-! DEFINITION. The command encoding (`30_encoding.md`): fields, formats, the opcode map, the decoder, total on every
96-bit word and rejecting by name, and after it the encoder, written from the same tables. -/

namespace Sys2Proof

/-- `op = cmd[95:88]` (R70). -/
def opField (w : Command) : BitVec 8 := w.extractLsb' 88 8

/-- `idx = cmd[87:80]` (R70). -/
def idxField (w : Command) : BitVec 8 := w.extractLsb' 80 8

/-- `addr = cmd[79:64]` (R70). -/
def addrField (w : Command) : Addr := w.extractLsb' 64 16

/-- `data = cmd[63:0]` (R70). -/
def dataField (w : Command) : Word := w.extractLsb' 0 64

/-- The command word with the four fields of R70, `op` most significant. -/
def mkCommand (op idx : BitVec 8) (addr : Addr) (data : Word) : Command := op ++ idx ++ addr ++ data

/-- The formats of R71. -/
inductive Format where
  | z | v | hw | hr | tw | tr | mb | mw | mr | p
  deriving DecidableEq, Repr

/-- The bits a format does not use, which must be zero (R71, R75). -/
def Format.reserved : Format → Command
  | .z => mkCommand 0 0xFF 0xFFFF 0xFFFFFFFFFFFFFFFF
  | .v => mkCommand 0 0xFC 0xFFFF 0xFFFFFFFFFFFFFFFF
  | .hw => mkCommand 0 0xF0 0xFFFF 0
  | .hr => mkCommand 0 0xF0 0xFFFF 0xFFFFFFFFFFFFFFFF
  | .tw => mkCommand 0 0xFE 0xFFFF 0
  | .tr => mkCommand 0 0xFE 0xFFFF 0xFFFFFFFFFFFFFFFF
  | .mb => mkCommand 0 0xFF 0 0xFFFFFFFFFFFFFF00
  | .mw => mkCommand 0 0xFF 0 0
  | .mr => mkCommand 0 0xFF 0 0xFFFFFFFFFFFFFFFF
  | .p => mkCommand 0 0 0 0xFFFFFFFFFFFF0000

/-- The value of `op` for each command (R73). -/
def Opcode.byte : Opcode → BitVec 8
  | .nop => 0x00
  | .rst => 0x01
  | .rdst => 0x02
  | .setn => 0x08
  | .ldh => 0x09
  | .ldt => 0x0A
  | .rdh => 0x0B
  | .rdt => 0x0C
  | .wrb => 0x10
  | .wrw => 0x11
  | .rdb => 0x12
  | .rdw => 0x13
  | .sth => 0x14
  | .proc => 0x20

/-- The format of each command (R73). -/
def Opcode.format : Opcode → Format
  | .nop => .z
  | .rst => .z
  | .rdst => .z
  | .setn => .v
  | .ldh => .hw
  | .ldt => .tw
  | .rdh => .hr
  | .rdt => .tr
  | .wrb => .mb
  | .wrw => .mw
  | .rdb => .mr
  | .rdw => .mr
  | .sth => .mr
  | .proc => .p

/-- The fourteen commands in the order of R73. -/
def Opcode.all : List Opcode :=
  [.nop, .rst, .rdst, .setn, .ldh, .ldt, .rdh, .rdt, .wrb, .wrw, .rdb, .rdw, .sth, .proc]

/-- The command an `op` value selects; `none` for the reserved values (R73, R74). -/
def Opcode.ofByte (b : BitVec 8) : Option Opcode := Opcode.all.find? fun o => o.byte == b

/-- The tweak word that `idx[0]` names (R78). -/
def tweakIndexOf (idx : BitVec 8) : TweakIndex := if idx.getLsbD 0 then .t1 else .t0

/-- The operands of a command, each taken from its bits (R78): nothing is sign-extended, scaled or shifted. -/
def readOperands (o : Opcode) (w : Command) : Instr :=
  match o with
  | .nop => .nop
  | .rst => .rst
  | .rdst => .rdst
  | .setn => .setn ((idxField w).extractLsb' 0 2).toNat
  | .ldh => .ldh ((idxField w).extractLsb' 0 4).toNat (dataField w)
  | .ldt => .ldt (tweakIndexOf (idxField w)) (dataField w)
  | .rdh => .rdh ((idxField w).extractLsb' 0 4).toNat
  | .rdt => .rdt (tweakIndexOf (idxField w))
  | .wrb => .wrb (addrField w) ((dataField w).extractLsb' 0 8)
  | .wrw => .wrw (addrField w) (dataField w)
  | .rdb => .rdb (addrField w)
  | .rdw => .rdw (addrField w)
  | .sth => .sth (addrField w)
  | .proc => .proc (addrField w) ((dataField w).extractLsb' 0 16).toNat (idxField w)

/-- Why a word is not a command. Both reasons raise ILLEGAL_CMD (R212). -/
inductive DecodeError where
  /-- `op` is one of the 242 reserved values (R74). -/
  | reservedOpcode (op : BitVec 8)
  /-- `op` is legal and a bit that its format reserves is 1 (R75). -/
  | reservedBits (o : Opcode)
  deriving DecidableEq, Repr

/-- The decoder: tests 2 and 3 of R76, in that order. -/
def decode (w : Command) : Except DecodeError Instr :=
  match Opcode.ofByte (opField w) with
  | none => .error (.reservedOpcode (opField w))
  | some o => if w &&& o.format.reserved = 0 then .ok (readOperands o w) else .error (.reservedBits o)

/-- The command a term is a form of. -/
def Instr.opcode : Instr → Opcode
  | .nop => .nop
  | .rst => .rst
  | .rdst => .rdst
  | .setn _ => .setn
  | .ldh _ _ => .ldh
  | .ldt _ _ => .ldt
  | .rdh _ => .rdh
  | .rdt _ => .rdt
  | .wrb _ _ => .wrb
  | .wrw _ _ => .wrw
  | .rdb _ => .rdb
  | .rdw _ => .rdw
  | .sth _ => .sth
  | .proc _ _ _ => .proc

/-- The register number of a tweak word (R25). -/
def TweakIndex.code : TweakIndex → BitVec 8
  | .t0 => 0
  | .t1 => 1

/-- The `idx` field of a term (R71). -/
def Instr.idxBits : Instr → BitVec 8
  | .nop | .rst | .rdst => 0
  | .setn code => BitVec.ofNat 8 code
  | .ldh i _ => BitVec.ofNat 8 i
  | .ldt j _ => j.code
  | .rdh i => BitVec.ofNat 8 i
  | .rdt j => j.code
  | .wrb _ _ | .wrw _ _ | .rdb _ | .rdw _ | .sth _ => 0
  | .proc _ _ add => add

/-- The `addr` field of a term (R71). -/
def Instr.addrBits : Instr → Addr
  | .nop | .rst | .rdst | .setn _ | .ldh _ _ | .ldt _ _ | .rdh _ | .rdt _ => 0
  | .wrb a _ => a
  | .wrw a _ => a
  | .rdb a => a
  | .rdw a => a
  | .sth a => a
  | .proc ptr _ _ => ptr

/-- The `data` field of a term (R71). -/
def Instr.dataBits : Instr → Word
  | .nop | .rst | .rdst | .setn _ | .rdh _ | .rdt _ | .rdb _ | .rdw _ | .sth _ => 0
  | .ldh _ v => v
  | .ldt _ v => v
  | .wrb _ b => b.zeroExtend 64
  | .wrw _ v => v
  | .proc _ cnt _ => BitVec.ofNat 64 cnt

/-- The encoder: the command word of a well-formed command (R70, R71, R73). -/
def encode (i : Instr) : Command := mkCommand i.opcode.byte i.idxBits i.addrBits i.dataBits

/-- The `match` column of the opcode table: the fixed bits of each row (`opcode_table.json`). -/
def Opcode.tableMatch : Opcode → Command
  | .nop => 0x000000000000000000000000
  | .rst => 0x010000000000000000000000
  | .rdst => 0x020000000000000000000000
  | .setn => 0x080000000000000000000000
  | .ldh => 0x090000000000000000000000
  | .ldt => 0x0A0000000000000000000000
  | .rdh => 0x0B0000000000000000000000
  | .rdt => 0x0C0000000000000000000000
  | .wrb => 0x100000000000000000000000
  | .wrw => 0x110000000000000000000000
  | .rdb => 0x120000000000000000000000
  | .rdw => 0x130000000000000000000000
  | .sth => 0x140000000000000000000000
  | .proc => 0x200000000000000000000000

/-- The `mask` column of the opcode table: the bits each row compares, `op` and the reserved bits of its format. -/
def Opcode.tableMask : Opcode → Command
  | .nop => 0xFFFFFFFFFFFFFFFFFFFFFFFF
  | .rst => 0xFFFFFFFFFFFFFFFFFFFFFFFF
  | .rdst => 0xFFFFFFFFFFFFFFFFFFFFFFFF
  | .setn => 0xFFFCFFFFFFFFFFFFFFFFFFFF
  | .ldh => 0xFFF0FFFF0000000000000000
  | .ldt => 0xFFFEFFFF0000000000000000
  | .rdh => 0xFFF0FFFFFFFFFFFFFFFFFFFF
  | .rdt => 0xFFFEFFFFFFFFFFFFFFFFFFFF
  | .wrb => 0xFFFF0000FFFFFFFFFFFFFF00
  | .wrw => 0xFFFF00000000000000000000
  | .rdb => 0xFFFF0000FFFFFFFFFFFFFFFF
  | .rdw => 0xFFFF0000FFFFFFFFFFFFFFFF
  | .sth => 0xFFFF0000FFFFFFFFFFFFFFFF
  | .proc => 0xFF000000FFFFFFFFFFFF0000

/-- The command word a number of the opcode table's numbering stands for: bit 0 is the least significant bit, bits
from `nbits` up are zero (R70, R82: the word is one 96-bit value, with no byte serialisation). -/
def tableWord (nbits w : Nat) : Command := BitVec.ofNat 96 (w % 2 ^ nbits)

/-- What the decoder reads from a word of the opcode table. -/
def decodeTableWord (nbits w : Nat) : Option Instr :=
  match decode (tableWord nbits w) with
  | .ok i => some i
  | .error _ => none

end Sys2Proof
end

