-- ==== Sys2Proof/Config.lean ====
section
/-! DEFINITION. What an implementation of the engine fixes (the size of the block memory) and the one free value
(the contents of block memory that nothing has written since hardware reset). -/

namespace Sys2Proof

/-- The implementation parameter of the step (R6, R33). `CMD_TRANSPORT` is not here: no rule depends on it and the
model takes the command as a 96-bit value (R82). -/
structure Config where
  /-- `BM_BYTES`, the size of the block memory in bytes; OPEN in the spec (R6). -/
  bmBytes : Nat
  deriving DecidableEq, Repr

/-- The range R6 gives `BM_BYTES`: `128 <= BM_BYTES <= 65536` and `BM_BYTES mod 8 = 0`. -/
abbrev Config.wf (c : Config) : Prop := 128 ≤ c.bmBytes ∧ c.bmBytes ≤ 65536 ∧ c.bmBytes % 8 = 0

/-- The default R6 names: `BM_BYTES = 1024`. -/
def Config.default : Config := { bmBytes := 1024 }

/-- FREE VALUE (R34, R238; log entry 5): the byte that block memory holds at address `addr` when nothing has written it
since hardware reset number `epoch`. The value is stable, and nothing can be proved about it. -/
opaque Config.unwrittenByte (epoch addr : Nat) : Byte

end Sys2Proof
end

