-- ==== Sys2Proof/Machine/State.lean ====
section
/-! DEFINITION. The state of the engine (R21), the host's side of the command port as plain data, the reasons a step can
stop, and the state right after reset (R34). -/

namespace Sys2Proof.Machine

/-- The variant N that CFG.NSEL selects (R26). The code 3 can never be held, so the type has three values (U23). -/
inductive Variant where
  | n256 | n512 | n1024
  deriving DecidableEq, Repr

/-- STATUS.CAUSE (R211): code 0 and the five causes; codes 6 to 15 are never produced (U26). -/
inductive Cause where
  | none | illegalCmd | badVariant | badIndex | zeroBlocks | addrRange
  deriving DecidableEq, Repr

/-- The 65-bit response to a command (R72). -/
structure Response where
  err : Bool
  data : Word
  deriving DecidableEq, Repr

/-- What the outside world can do to the engine: present a command (R20), or apply hardware reset (R235). -/
inductive HostInput where
  | command (w : Command)
  | hardwareReset
  deriving DecidableEq, Repr

/-- The block memory's written bytes, one cell an address, addresses strictly rising. -/
abbrev Memory := List Host.Cell

/-- The engine and its command port. -/
structure State where
  /-- H[0..15], the chaining words; H[0..W-1] are live (R22). -/
  h : Vector Word 16
  /-- T[0], the byte counter (R25). -/
  t0 : Word
  /-- T[1], block type and flags (R25). -/
  t1 : Word
  /-- CFG.NSEL (R26). -/
  nsel : Variant
  /-- STATUS.FAULT, the sticky fault flag (R27); also the output `fault_o` (R32). -/
  fault : Bool
  /-- STATUS.CAUSE (R27). -/
  cause : Cause
  /-- STATUS.FOP, the opcode byte of the command that faulted (R27). -/
  fop : BitVec 8
  /-- BM: the bytes written since hardware reset (R28). -/
  bm : Memory
  /-- THE MODEL'S OWN: how many hardware resets have made BM unspecified again; selects the free value that an
  unwritten byte reads as (log entries 5 and 6). -/
  bmEpoch : Nat
  /-- `BM_BYTES`, fixed for the machine: no step changes it (R33, log entry 4). -/
  config : Config
  /-- THE MODEL'S OWN: what the host has yet to do at the port, next first (log entry 1). -/
  pending : List HostInput
  /-- THE MODEL'S OWN: the responses given so far, latest first (log entry 3). -/
  responses : List Response
  deriving DecidableEq, Repr

/-- The reasons the machine could stop with a fault: there are none. A fault of the engine (R210) is a next state, in
which the engine goes on to refuse commands (R219), so no meaning raises one of these (log entry 12). Safe. -/
inductive Fault where
  deriving DecidableEq, Repr

/-- The reasons a step could have no meaning. -/
inductive Refusal where
  /-- Raised by an arm of `exec` whose command has no meaning yet; no arm is left so. Safe: the run stops. -/
  | notModelled (mnemonic : String)
  deriving DecidableEq, Repr

/-- The state right after hardware reset (R34, R236), with the default `BM_BYTES`, nothing waiting at the port and no
response given; BM is unspecified, so it lists nothing (log entries 4, 5, 6). -/
def State.reset : State where
  h := Vector.replicate 16 0
  t0 := 0
  t1 := 0
  nsel := .n256
  fault := false
  cause := .none
  fop := 0
  bm := []
  bmEpoch := 0
  config := Config.default
  pending := []
  responses := []

end Sys2Proof.Machine
end

