-- ==== Sys2Proof/Machine/Operands.lean ====
section
/-! DEFINITION. What a command's operands mean: the parameters of the variant in force (R5), the variant codes (R26), the
fields of T1 (R25), word rotation (R8) and the byte order of block memory (R51). -/

namespace Sys2Proof.Machine

/-- W, the number of live chaining words (R5). -/
def Variant.words : Variant → Nat
  | .n256 => 4
  | .n512 => 8
  | .n1024 => 16

/-- NB, the bytes of a block (R5). -/
def Variant.blockBytes (n : Variant) : Nat := 8 * n.words

/-- R_total, the number of rounds (R5, R162). -/
def Variant.rounds : Variant → Nat
  | .n256 => 72
  | .n512 => 72
  | .n1024 => 80

/-- The two bits of CFG.NSEL (R26). -/
def Variant.code : Variant → BitVec 2
  | .n256 => 0
  | .n512 => 1
  | .n1024 => 2

/-- The variant a code of SETN selects: 0, 1, 2; the code 3 is reserved (R26). -/
def Variant.ofCode : Nat → Option Variant
  | 0 => some .n256
  | 1 => some .n512
  | 2 => some .n1024
  | _ => none

/-- `rotl64(x, r)`, the left rotation by r bit positions (R8). -/
def rotl64 (x : Word) (r : Nat) : Word := x.rotateLeft r

/-- FIRST_BIT: bit 62 of T1 is the first-block flag (R163). -/
def firstBit : Nat := 62

/-- FINAL: bit 63 of T1 (R163). The engine never looks at it. -/
def finalBit : Nat := 63

/-- The mask PROC clears the first-block flag with (R163). -/
def firstFlagMask : Word := 0xBFFFFFFFFFFFFFFF

/-- T1 from its fields (R25, R186): FINAL, FIRST, TYPE and BITPAD; the tree level and the bits below are zero. -/
def tweakFlags (final first : Bool) (type : BitVec 6) (bitPad : Bool) : Word :=
  BitVec.ofBool final ++ BitVec.ofBool first ++ type ++ BitVec.ofBool bitPad ++ (0 : BitVec 55)

/-- The `n` bytes of a word's low bits, least significant byte first (R51, R53). -/
def leBytes (n : Nat) (v : Word) : List Byte := (List.range n).map fun k => v.extractLsb' (8 * k) 8

/-- The number whose bytes, least significant first, are the list's: the sum of R52. -/
def leNat : List Byte → Nat
  | [] => 0
  | b :: bs => b.toNat + 256 * leNat bs

/-- The bytes of a sequence of words: word 0 first, each word least significant byte first (R63). -/
def serialize (ws : List Word) : List Byte := ws.flatMap (leBytes 8)

end Sys2Proof.Machine
end

