-- ==== Sys2Proof/Machine/Flags.lean ====
section
/-! DEFINITION. STATUS (R27). It holds the engine's only flag, FAULT: no arithmetic result sets one (R31). -/

namespace Sys2Proof.Machine

/-- The code of a cause (R211). -/
def Cause.code : Cause → BitVec 4
  | .none => 0
  | .illegalCmd => 1
  | .badVariant => 2
  | .badIndex => 3
  | .zeroBlocks => 4
  | .addrRange => 5

/-- The 64-bit STATUS register: FOP at 23:16, NSEL at 9:8, CAUSE at 7:4, FAULT at 0, every other bit 0 (R27, R93). -/
def State.status (s : State) : Word :=
  (0 : BitVec 40) ++ s.fop ++ (0 : BitVec 6) ++ s.nsel.code ++ s.cause.code ++ (0 : BitVec 3) ++ BitVec.ofBool s.fault

/-- The output signal `fault_o`, equal to STATUS.FAULT at all times (R32). -/
def State.faultO (s : State) : Bool := s.fault

/-- The opcode bytes with which a cause can be recorded (R211, column "recorded"); with no fault FOP is 0. -/
def Cause.recordedWith : Cause → BitVec 8 → Bool
  | .none, o => o == 0
  | .illegalCmd, _ => true
  | .badVariant, o => o == Opcode.setn.byte
  | .badIndex, o => o == Opcode.ldh.byte || o == Opcode.rdh.byte
  | .zeroBlocks, o => o == Opcode.proc.byte
  | .addrRange, o =>
    o == Opcode.wrb.byte || o == Opcode.wrw.byte || o == Opcode.rdb.byte || o == Opcode.rdw.byte ||
      o == Opcode.sth.byte || o == Opcode.proc.byte

end Sys2Proof.Machine
end

