-- ==== Sys2Proof/Machine/Ops.lean ====
section
/-! DEFINITION. The shared operations every meaning is written with: answering a command, taking a fault (R218), refusing
a command while a fault is pending (R219), leaving the fault state (R220), and the accessors of registers and of block
memory (R52, R53). -/

namespace Sys2Proof.Machine

/-! ### Block memory as a list of cells -/

/-- The form of block memory: addresses strictly rising. An unlisted address holds no written byte, so no entry can
equal what it reads as (log entry 5). -/
abbrev Memory.wf (m : Memory) : Prop := (m.map Prod.fst).Pairwise (· < ·)

/-- The byte written at an address, if one has been. -/
def Memory.lookup : Memory → Nat → Option Byte
  | [], _ => none
  | (b, w) :: m, a => if a = b then some w else Memory.lookup m a

/-- `BM[a] <- v`, keeping the form. -/
def Memory.write : Memory → Nat → Byte → Memory
  | [], a, v => [(a, v)]
  | (b, w) :: m, a, v =>
    if a < b then (a, v) :: (b, w) :: m
    else if a = b then (a, v) :: m
    else (b, w) :: Memory.write m a v

/-- Successive bytes from an address on. -/
def Memory.writeBytes : Memory → Nat → List Byte → Memory
  | m, _, [] => m
  | m, a, b :: bs => Memory.writeBytes (m.write a b) (a + 1) bs

/-! ### Block memory of the engine -/

/-- An access of `n` bytes at `a` is in range (R54), on natural numbers, with no wrap. -/
abbrev State.inRange (s : State) (a n : Nat) : Prop := a + n ≤ s.config.bmBytes

/-- `BM[a]`: the byte written there, or the free value of a byte nothing has written since hardware reset (R34). -/
def State.readByte (s : State) (a : Nat) : Byte := (s.bm.lookup a).getD (Config.unwrittenByte s.bmEpoch a)

/-- The `n` bytes from `a` on. -/
def State.readBytes (s : State) (a n : Nat) : List Byte := (List.range n).map fun k => s.readByte (a + k)

/-- `zext_64(MemRead(a, n))` (R52). -/
def State.memRead (s : State) (a n : Nat) : Word := BitVec.ofNat 64 (leNat (s.readBytes a n))

/-- `MemWrite(a, n, v)` (R53). -/
def State.memWrite (s : State) (a n : Nat) (v : Word) : State := { s with bm := s.bm.writeBytes a (leBytes n v) }

/-- `for i: MemWrite(a + 8*i, 8, ws[i])`, the loop of STH (R114). -/
def State.storeWords : State → Nat → List Word → State
  | s, _, [] => s
  | s, a, w :: ws => State.storeWords (s.memWrite a 8 w) (a + 8) ws

/-! ### Registers -/

/-- `H[i]` (R22). -/
def State.readH (s : State) (i : Nat) : Word := s.h[i]?.getD 0

/-- `H[i] <- v` (R22). -/
def State.writeH (s : State) (i : Nat) (v : Word) : State := { s with h := s.h.setIfInBounds i v }

/-- The chaining state H[0..W-1] (R22). -/
def State.liveH (s : State) : List Word := (List.range s.nsel.words).map s.readH

/-- `for i in 0..W-1: H[i] <- ws[i]`; a word beyond the list is kept. -/
def State.writeLiveH (s : State) (ws : List Word) : State := { s with h := s.h.mapIdx fun i x => ws.getD i x }

/-- `T[j]` (R25). -/
def State.readT (s : State) : TweakIndex → Word
  | .t0 => s.t0
  | .t1 => s.t1

/-- `T[j] <- v` (R25). -/
def State.writeT (s : State) (j : TweakIndex) (v : Word) : State :=
  match j with
  | .t0 => { s with t0 := v }
  | .t1 => { s with t1 := v }

/-- `CFG.NSEL <- n` and nothing else (R23). -/
def State.setVariant (s : State) (n : Variant) : State := { s with nsel := n }

/-! ### The command port -/

/-- The host's next action is taken from the port; `rest` is left. -/
def State.consume (s : State) (rest : List HostInput) : State := { s with pending := rest }

/-! ### Responses -/

/-- One response at the port (R72). -/
def State.respond (s : State) (err : Bool) (data : Word) : State :=
  { s with responses := { err := err, data := data } :: s.responses }

/-- `resp <- v`: ERR = 0, DATA = v (R10). -/
def State.answer (s : State) (v : Word) : State := s.respond false v

/-! ### Faults -/

/-- TAKING A FAULT: `raise Fault(c)` in a command with opcode byte `o` (R218): STATUS.FAULT, CAUSE and FOP are written,
the response is ERR = 1, DATA = 0, and nothing else changes. -/
def State.raise (s : State) (c : Cause) (o : BitVec 8) : State :=
  { s with fault := true, cause := c, fop := o }.respond true 0

/-- Refusing a command while STATUS.FAULT = 1: ERR = 1, DATA = 0, no state change at all (R219). -/
def State.refuse (s : State) : State := s.respond true 0

/-- LEAVING THE FAULT STATE: what the RST command writes (R92, R220); BM is not changed (R34). -/
def State.clear (s : State) : State :=
  { s with
    h := Vector.replicate 16 0, t0 := 0, t1 := 0, nsel := .n256, fault := false, cause := .none, fop := 0 }

/-- Hardware reset (R34, R235): what RST writes, and BM becomes unspecified anew. -/
def State.hardwareReset (s : State) : State := { s.clear with bm := [], bmEpoch := s.bmEpoch + 1 }

/-- The common preamble (R90; test 1 of R76): while STATUS.FAULT = 1 the command is refused, otherwise its own rule has
run to `s'`. -/
def unlessFaulted (s s' : State) : Host.Outcome State Fault Refusal := .next (if s.fault then s.refuse else s')

/-- A word the decoder rejects (R74, R75): ILLEGAL_CMD with FOP = cmd[95:88], or refused while a fault is pending. -/
def illegalCommand (w : Command) (s : State) : Host.Outcome State Fault Refusal :=
  unlessFaulted s (s.raise .illegalCmd (opField w))

/-- No command waits at the port: the engine is between commands and nothing happens (R228, log entry 2). -/
def idle (s : State) : Host.Outcome State Fault Refusal := .next s

/-- The host applies hardware reset: the engine answers nothing (log entry 6). -/
def applyHardwareReset (s : State) : Host.Outcome State Fault Refusal := .next s.hardwareReset

end Sys2Proof.Machine
end

