-- ==== Sys2Proof/Machine/BlockMemory.lean ====
section
/-! DEFINITION. The block-memory commands WRB, WRW, RDB, RDW and STH (`41_commands_memory.md`). The address is used as it
is; the whole access is checked before any byte is touched (R54), and no alignment is needed (R55). -/

namespace Sys2Proof.Machine

/-- WRB (R110). -/
def execWrb (a : Addr) (b : Byte) (s : State) : Host.Outcome State Fault Refusal :=
  unlessFaulted s <|
    if s.inRange a.toNat 1 then (s.memWrite a.toNat 1 (b.zeroExtend 64)).answer 0
    else s.raise .addrRange Opcode.wrb.byte

/-- WRW (R111). -/
def execWrw (a : Addr) (v : Word) (s : State) : Host.Outcome State Fault Refusal :=
  unlessFaulted s <|
    if s.inRange a.toNat 8 then (s.memWrite a.toNat 8 v).answer 0
    else s.raise .addrRange Opcode.wrw.byte

/-- RDB (R112). -/
def execRdb (a : Addr) (s : State) : Host.Outcome State Fault Refusal :=
  unlessFaulted s <|
    if s.inRange a.toNat 1 then s.answer (s.memRead a.toNat 1)
    else s.raise .addrRange Opcode.rdb.byte

/-- RDW (R113). -/
def execRdw (a : Addr) (s : State) : Host.Outcome State Fault Refusal :=
  unlessFaulted s <|
    if s.inRange a.toNat 8 then s.answer (s.memRead a.toNat 8)
    else s.raise .addrRange Opcode.rdw.byte

/-- STH (R114): H[0..W-1] is stored little-endian, word 0 first. -/
def execSth (a : Addr) (s : State) : Host.Outcome State Fault Refusal :=
  unlessFaulted s <|
    if s.inRange a.toNat s.nsel.blockBytes then (s.storeWords a.toNat s.liveH).answer 0
    else s.raise .addrRange Opcode.sth.byte

end Sys2Proof.Machine
end

