-- ==== Sys2Proof/Machine/Control.lean ====
section
/-! DEFINITION. The control commands NOP, RST, RDST and SETN (`40_commands_state.md`). -/

namespace Sys2Proof.Machine

/-- NOP (R91): nothing, response 0:0. -/
def execNop (s : State) : Host.Outcome State Fault Refusal := unlessFaulted s (s.answer 0)

/-- RST (R92): runs whether STATUS.FAULT is 0 or 1. -/
def execRst (s : State) : Host.Outcome State Fault Refusal := .next (s.clear.answer 0)

/-- RDST (R93): runs whether STATUS.FAULT is 0 or 1, and changes no state. -/
def execRdst (s : State) : Host.Outcome State Fault Refusal := .next (s.answer s.status)

/-- SETN (R94): the code 3 raises BAD_VARIANT, any other selects its variant. -/
def execSetn (code : Nat) (s : State) : Host.Outcome State Fault Refusal :=
  unlessFaulted s <|
    match Variant.ofCode code with
    | none => s.raise .badVariant Opcode.setn.byte
    | some n => (s.setVariant n).answer 0

end Sys2Proof.Machine
end

