-- ==== Sys2Proof/Machine/Registers.lean ====
section
/-! DEFINITION. The register-access commands LDH, LDT, RDH and RDT (`40_commands_state.md`). -/

namespace Sys2Proof.Machine

/-- LDH (R95): an index of W or more raises BAD_INDEX. -/
def execLdh (i : Nat) (v : Word) (s : State) : Host.Outcome State Fault Refusal :=
  unlessFaulted s <|
    if s.nsel.words ≤ i then s.raise .badIndex Opcode.ldh.byte else (s.writeH i v).answer 0

/-- LDT (R96): every value is legal. -/
def execLdt (j : TweakIndex) (v : Word) (s : State) : Host.Outcome State Fault Refusal :=
  unlessFaulted s ((s.writeT j v).answer 0)

/-- RDH (R97): an index of W or more raises BAD_INDEX. -/
def execRdh (i : Nat) (s : State) : Host.Outcome State Fault Refusal :=
  unlessFaulted s <|
    if s.nsel.words ≤ i then s.raise .badIndex Opcode.rdh.byte else s.answer (s.readH i)

/-- RDT (R98). -/
def execRdt (j : TweakIndex) (s : State) : Host.Outcome State Fault Refusal :=
  unlessFaulted s (s.answer (s.readT j))

end Sys2Proof.Machine
end

