-- ==== Sys2Proof/Machine/Constants.lean ====
section
/-! DEFINITION. The constants table (`44_constants.md`): immutable, the same for every engine (R165). -/

namespace Sys2Proof.Machine

/-- C240, the parity constant of the key schedule (R155). -/
def c240 : Word := 0x1BD11BDAA9FC1A22

/-- ROT_4, ROT_8 and ROT_16: row d mod 8, entry j (R156, R157, R158; the last is UNVERIFIED, log entry 9). -/
def Variant.rotations : Variant → List (List Nat)
  | .n256 => [
      [14, 16], [52, 57], [23, 40], [5, 37],
      [25, 33], [46, 12], [58, 22], [32, 32]]
  | .n512 => [
      [46, 36, 19, 37], [33, 27, 14, 42], [17, 49, 36, 39], [44, 9, 54, 56],
      [39, 30, 34, 24], [13, 50, 10, 17], [25, 29, 39, 43], [8, 35, 56, 22]]
  | .n1024 => [
      [24, 13, 8, 47, 8, 17, 22, 37], [38, 19, 10, 55, 49, 18, 23, 52],
      [33, 4, 51, 13, 34, 41, 59, 17], [5, 20, 48, 41, 47, 28, 16, 25],
      [41, 9, 37, 31, 12, 47, 44, 30], [16, 34, 56, 51, 4, 53, 42, 41],
      [31, 44, 47, 46, 19, 42, 44, 25], [9, 48, 35, 52, 23, 31, 37, 20]]

/-- PI_4, PI_8 and PI_16: new word i comes from old word PI_W[i] (R159, R160, R161; the last is UNVERIFIED). -/
def Variant.pi : Variant → List Nat
  | .n256 => [0, 3, 2, 1]
  | .n512 => [2, 1, 4, 7, 6, 5, 0, 3]
  | .n1024 => [0, 9, 2, 13, 6, 11, 4, 15, 10, 7, 12, 3, 14, 5, 8, 1]

/-- The rotation amounts of round d: row `d mod 8` (R138). -/
def Variant.rotationRow (n : Variant) (d : Nat) : List Nat := n.rotations.getD (d % 8) []

end Sys2Proof.Machine
end

