-- ==== Sys2Proof/Machine/Schedule.lean ====
section
/-! DEFINITION. The key schedule, the tweak schedule and the subkeys (`42_key_tweak_schedule.md`): functions PROC uses
once per block. They are local values, not state (R29). -/

namespace Sys2Proof.Machine

/-- `KeySchedule(K)`: the words of K and then C240 xor all of them (R125). -/
def keySchedule (k : List Word) : List Word := k ++ [k.foldl (· ^^^ ·) c240]

/-- `TweakSchedule(t0, t1)`: t0, t1 and t0 xor t1 (R126). -/
def tweakSchedule (t0 t1 : Word) : List Word := [t0, t1, t0 ^^^ t1]

/-- Word i of `Subkey(ks, ts, s)` for `w` words (R127). -/
def subkeyWord (ks ts : List Word) (w s i : Nat) : Word :=
  let k := ks.getD ((s + i) % (w + 1)) 0
  if i + 3 = w then add64 k (ts.getD (s % 3) 0)
  else if i + 2 = w then add64 k (ts.getD ((s + 1) % 3) 0)
  else if i + 1 = w then add64 k (BitVec.ofNat 64 s)
  else k

/-- `Subkey(ks, ts, s)`, the W words that injection s adds (R127). -/
def subkey (n : Variant) (ks ts : List Word) (s : Nat) : List Word :=
  (List.range n.words).map (subkeyWord ks ts n.words s)

end Sys2Proof.Machine
end

