-- ==== Sys2Proof/Machine/Threefish.lean ====
section
/-! DEFINITION. The Threefish-N permutation in its explicit form (`43_threefish_permutation.md`, R135 to R141). -/

namespace Sys2Proof.Machine

/-- `Inject(X, ks, ts, s)`: subkey s is added word by word (R136). -/
def inject (n : Variant) (ks ts : List Word) (s : Nat) (x : List Word) : List Word :=
  List.zipWith add64 x (subkey n ks ts s)

/-- `MIX(a, b, r)` (R137). -/
def mix (a b : Word) (r : Nat) : Word × Word := (add64 a b, rotl64 b r ^^^ add64 a b)

/-- `MixLayer`: neighbour pair j goes through MIX with rotation amount j of the row (R138). -/
def mixLayer : List Nat → List Word → List Word
  | r :: rs, a :: b :: xs => (mix a b r).1 :: (mix a b r).2 :: mixLayer rs xs
  | _, xs => xs

/-- `Permute`: `Z[i] <- Y[PI_W[i]]` (R139). -/
def permute (n : Variant) (y : List Word) : List Word := n.pi.map fun j => y.getD j 0

/-- Round d (R140). -/
def round (n : Variant) (d : Nat) (x : List Word) : List Word := permute n (mixLayer (n.rotationRow d) x)

/-- The first `d` rounds on the whitened words, each fourth one followed by its injection (the loop of R141). -/
def encryptRounds (n : Variant) (ks ts : List Word) : Nat → List Word → List Word
  | 0, x => x
  | d + 1, x =>
    let y := round n d (encryptRounds n ks ts d x)
    if (d + 1) % 4 = 0 then inject n ks ts ((d + 1) / 4) y else y

/-- `Encrypt_W(ks, ts, Bw)` (R141). -/
def encrypt (n : Variant) (ks ts b : List Word) : List Word :=
  encryptRounds n ks ts n.rounds (inject n ks ts 0 b)

/-- `Threefish_{K,T}(B)` (R141). -/
def threefish (n : Variant) (k : List Word) (t0 t1 : Word) (b : List Word) : List Word :=
  encrypt n (keySchedule k) (tweakSchedule t0 t1) b

end Sys2Proof.Machine
end

