-- ==== Sys2Proof/Machine/Ubi.lean ====
section
/-! DEFINITION. The UBI block iterator and the feed-forward: PROC (`45_ubi_iterator.md`). -/

namespace Sys2Proof.Machine

/-- `Bw[i] = MemRead(p + 8*i, 8)`, the words of the block at `p` (R62). -/
def State.blockWords (s : State) (p : Nat) : List Word :=
  (List.range s.nsel.words).map fun i => s.memRead (p + 8 * i) 8

/-- T[0] advanced by the bytes of a block, modulo 2^64 (R173). -/
def State.advanceT0 (s : State) (add : Byte) : State := { s with t0 := add64 s.t0 (add.zeroExtend 64) }

/-- The first-block flag of T[1] cleared (R174). -/
def State.clearFirstFlag (s : State) : State := { s with t1 := s.t1 &&& firstFlagMask }

/-- H replaced by the ciphertext of the block at `p`, keyed by H and T as they stand, xor the block (R171, R172). -/
def State.compress (s : State) (p : Nat) : State :=
  let b := s.blockWords p
  s.writeLiveH (List.zipWith (· ^^^ ·) (threefish s.nsel s.liveH s.t0 s.t1 b) b)

/-- `UbiBlock(p, add)` (R171), in the order of R175. -/
def State.ubiBlock (s : State) (p : Nat) (add : Byte) : State := ((s.advanceT0 add).compress p).clearFirstFlag

/-- `for k in 0..cnt-1: UbiBlock(p + k * NB, add)` (R170). -/
def State.ubiBlocks : State → Nat → Nat → Byte → State
  | s, _, 0, _ => s
  | s, p, cnt + 1, add => State.ubiBlocks (s.ubiBlock p add) (p + s.nsel.blockBytes) cnt add

/-- PROC (R170): no blocks raise ZERO_BLOCKS, tested before the range of all the blocks. -/
def execProc (ptr : Addr) (cnt : Nat) (add : Byte) (s : State) : Host.Outcome State Fault Refusal :=
  unlessFaulted s <|
    if cnt = 0 then s.raise .zeroBlocks Opcode.proc.byte
    else if s.inRange ptr.toNat (cnt * s.nsel.blockBytes) then (s.ubiBlocks ptr.toNat cnt add).answer 0
    else s.raise .addrRange Opcode.proc.byte

end Sys2Proof.Machine
end

