-- ==== Sys2Proof/Machine/Dispatch.lean ====
section
/-! DEFINITION. One arm per command: its meaning. -/

namespace Sys2Proof.Machine

/-- The meaning of a command in a state. -/
def exec (i : Instr) (s : State) : Host.Outcome State Fault Refusal :=
  match i with
  -- control
  | .nop => Sys2Proof.Machine.execNop s
  | .rst => Sys2Proof.Machine.execRst s
  | .rdst => Sys2Proof.Machine.execRdst s
  | .setn code => Sys2Proof.Machine.execSetn code s
  -- register access
  | .ldh k v => Sys2Proof.Machine.execLdh k v s
  | .ldt j v => Sys2Proof.Machine.execLdt j v s
  | .rdh k => Sys2Proof.Machine.execRdh k s
  | .rdt j => Sys2Proof.Machine.execRdt j s
  -- block memory
  | .wrb a b => Sys2Proof.Machine.execWrb a b s
  | .wrw a v => Sys2Proof.Machine.execWrw a v s
  | .rdb a => Sys2Proof.Machine.execRdb a s
  | .rdw a => Sys2Proof.Machine.execRdw a s
  | .sth a => Sys2Proof.Machine.execSth a s
  -- block processing
  | .proc ptr cnt add => Sys2Proof.Machine.execProc ptr cnt add s

end Sys2Proof.Machine
end

