-- ==== Sys2Proof/Machine/Step.lean ====
section
/-! DEFINITION. One step of the engine: the next thing the host does at the port (R12, R20, R76). -/

namespace Sys2Proof.Machine

/-- The host's first action is taken from the port; a word that decodes runs its command, a word that does not is an
illegal command. With nothing waiting the engine is idle. -/
def step (s : State) : Host.Outcome State Fault Refusal :=
  match s.pending with
  | [] => idle s
  | .hardwareReset :: rest => applyHardwareReset (s.consume rest)
  | .command w :: rest =>
    match decode w with
    | .ok i => exec i (s.consume rest)
    | .error _ => illegalCommand w (s.consume rest)

/-- The state in which the host presents that word of the opcode table next, before anything already waiting. -/
def State.withFetchWord (s : State) (nbits w : Nat) : State :=
  { s with pending := .command (tableWord nbits w) :: s.pending }

end Sys2Proof.Machine
end

