-- ==== Sys2Proof/Machine/Assembler.lean ====
section
/-! DEFINITION. The assembler's text form of a command (R80) and the pseudo-instructions (R81). The engine does not see
them: they say which commands the host's text stands for. -/

namespace Sys2Proof.Machine

/-- The mnemonics of R80. -/
def mnemonicText : Opcode → List Char
  | .nop => ['n', 'o', 'p']
  | .rst => ['r', 's', 't']
  | .rdst => ['r', 'd', 's', 't']
  | .setn => ['s', 'e', 't', 'n']
  | .ldh => ['l', 'd', 'h']
  | .ldt => ['l', 'd', 't']
  | .rdh => ['r', 'd', 'h']
  | .rdt => ['r', 'd', 't']
  | .wrb => ['w', 'r', 'b']
  | .wrw => ['w', 'r', 'w']
  | .rdb => ['r', 'd', 'b']
  | .rdw => ['r', 'd', 'w']
  | .sth => ['s', 't', 'h']
  | .proc => ['p', 'r', 'o', 'c']

/-- The value N selects as an operand of `setn` (R80). -/
def variantOperand : Nat → Option Nat
  | 256 => some 0
  | 512 => some 1
  | 1024 => some 2
  | _ => none

/-- A number that fits a field of `n` bits. -/
def fits (n v : Nat) : Bool := decide (v < 2 ^ n)

/-- The index j of `ldt` and `rdt`. -/
def tweakOperand : Nat → Option TweakIndex
  | 0 => some .t0
  | 1 => some .t1
  | _ => none

/-- The command a mnemonic and its operands, in the order of R80, stand for. An operand that does not fit its field
has no command (log entry 15). -/
def assembleOperands : Opcode → List Nat → Option Instr
  | .nop, [] => some .nop
  | .rst, [] => some .rst
  | .rdst, [] => some .rdst
  | .setn, [n] => (variantOperand n).map .setn
  | .ldh, [i, v] => if fits 4 i && fits 64 v then some (.ldh i (BitVec.ofNat 64 v)) else none
  | .ldt, [j, v] => if fits 64 v then (tweakOperand j).map fun t => .ldt t (BitVec.ofNat 64 v) else none
  | .rdh, [i] => if fits 4 i then some (.rdh i) else none
  | .rdt, [j] => (tweakOperand j).map .rdt
  | .wrb, [a, b] => if fits 16 a && fits 8 b then some (.wrb (BitVec.ofNat 16 a) (BitVec.ofNat 8 b)) else none
  | .wrw, [a, v] => if fits 16 a && fits 64 v then some (.wrw (BitVec.ofNat 16 a) (BitVec.ofNat 64 v)) else none
  | .rdb, [a] => if fits 16 a then some (.rdb (BitVec.ofNat 16 a)) else none
  | .rdw, [a] => if fits 16 a then some (.rdw (BitVec.ofNat 16 a)) else none
  | .sth, [a] => if fits 16 a then some (.sth (BitVec.ofNat 16 a)) else none
  | .proc, [p, cnt, add] =>
    if fits 16 p && fits 16 cnt && fits 8 add then some (.proc (BitVec.ofNat 16 p) cnt (BitVec.ofNat 8 add)) else none
  | _, _ => none

/-- The operands a command is written with (R80). The reserved variant code has no text form. -/
def operandNumbers : Instr → Option (List Nat)
  | .nop | .rst | .rdst => some []
  | .setn 0 => some [256]
  | .setn 1 => some [512]
  | .setn 2 => some [1024]
  | .setn _ => none
  | .ldh i v => some [i, v.toNat]
  | .ldt j v => some [j.code.toNat, v.toNat]
  | .rdh i => some [i]
  | .rdt j => some [j.code.toNat]
  | .wrb a b => some [a.toNat, b.toNat]
  | .wrw a v => some [a.toNat, v.toNat]
  | .rdb a => some [a.toNat]
  | .rdw a => some [a.toNat]
  | .sth a => some [a.toNat]
  | .proc ptr cnt add => some [ptr.toNat, cnt, add.toNat]

/-- The value of a digit in base 16. -/
def digitValue (c : Char) : Nat :=
  let v := c.toLower.toNat
  if 48 ≤ v ∧ v ≤ 57 then v - 48 else if 97 ≤ v ∧ v ≤ 102 then v - 87 else 16

/-- The number that digits in a base stand for, most significant first, continuing from `acc`. -/
def readDigits (base acc : Nat) : List Char → Option Nat
  | [] => some acc
  | c :: cs => if digitValue c < base then readDigits base (acc * base + digitValue c) cs else none

/-- A number: decimal, or hexadecimal after `0x` (R80). -/
def readNumber : List Char → Option Nat
  | [] => none
  | ['0', 'x'] => none
  | '0' :: 'x' :: ds => readDigits 16 0 ds
  | ds => readDigits 10 0 ds

/-- A text without the blanks around it. -/
def trimBlanks (cs : List Char) : List Char :=
  ((cs.dropWhile (· == ' ')).reverse.dropWhile (· == ' ')).reverse

/-- The text at each comma. -/
def splitCommas (current : List Char) : List Char → List (List Char)
  | [] => [current.reverse]
  | c :: cs => if c == ',' then current.reverse :: splitCommas [] cs else splitCommas (c :: current) cs

/-- The numbers of an operand list; a list of blanks has none. -/
def readOperandList (cs : List Char) : Option (List Nat) :=
  if trimBlanks cs = [] then some [] else (splitCommas [] cs).mapM fun c => readNumber (trimBlanks c)

/-- The command a line of text stands for: the mnemonic in any case, then the operands separated by commas (R80). -/
def assemble (line : List Char) : Option Instr := do
  let text := trimBlanks line
  let name := (text.takeWhile (· != ' ')).map Char.toLower
  let o ← Opcode.all.find? fun o => mnemonicText o == name
  let numbers ← readOperandList (text.dropWhile (· != ' '))
  assembleOperands o numbers

/-- The pseudo-instructions of R81. -/
inductive Pseudo where
  | ldtw (t0 t1 : Word)
  | ldhv (vs : List Word)
  | ldhz
  | wrblk (a : Nat) (ws : List Word)
  | wrz (a n : Nat)
  | rdhv
  | ubi1 (p : Addr) (add : Byte) (t1 : Word)
  deriving DecidableEq, Repr

/-- `ldh i, v0 ; ldh i+1, v1 ; …`. -/
def loadFrom : Nat → List Word → List Instr
  | _, [] => []
  | i, v :: vs => .ldh i v :: loadFrom (i + 1) vs

/-- `wrw a, w0 ; wrw a+8, w1 ; …`, for words whose addresses have 16 bits (`wordsAddressable`): its one use, in
`Pseudo.expand`, is under that test. -/
def storeFrom : Nat → List Word → List Instr
  | _, [] => []
  | a, w :: ws => .wrw (BitVec.ofNat 16 a) w :: storeFrom (a + 8) ws

/-- Each of `k` words from `a` on has a 16-bit address: the last one starts below 2^16. -/
abbrev wordsAddressable (a k : Nat) : Prop := k = 0 ∨ a + 8 * (k - 1) < 65536

/-- The commands a pseudo-instruction expands to, in order, under the variant in force where it stands (R81). One that
R81 gives no expansion (a wrong number of values, a length that is not a multiple of 8, a word whose address has more than
16 bits) has none (log entry 16). -/
def Pseudo.expand (n : Variant) : Pseudo → Option (List Instr)
  | .ldtw t0 t1 => some [.ldt .t0 t0, .ldt .t1 t1]
  | .ldhv vs => if vs.length = n.words then some (loadFrom 0 vs) else none
  | .ldhz => some (loadFrom 0 (List.replicate n.words 0))
  | .wrblk a ws => if wordsAddressable a ws.length then some (storeFrom a ws) else none
  | .wrz a k =>
    if k % 8 = 0 ∧ wordsAddressable a (k / 8) then some (storeFrom a (List.replicate (k / 8) 0)) else none
  | .rdhv => some ((List.range n.words).map .rdh)
  | .ubi1 p add t1 => some [.ldt .t0 0, .ldt .t1 t1, .proc p 1 add]

end Sys2Proof.Machine
end

