-- ==== Sys2Proof/Machine/ThreefishForms.lean ====
section
/-! DEFINITION. The derived forms of the permutation: its inverse (R145) and the in-place form (R143, R166). No command
uses them; claims compare the explicit form with them. -/

namespace Sys2Proof.Machine

/-- `sub64(a, b) = (a - b) mod 2^64` (R145). -/
def sub64 (a b : Word) : Word := a - b

/-- `rotr64(x, r) = rotl64(x, 64 - r)` (R145). -/
def rotr64 (x : Word) (r : Nat) : Word := rotl64 x (64 - r)

/-- `MIX_inv(a', b', r)` (R145). -/
def mixInv (a' b' : Word) (r : Nat) : Word × Word :=
  (sub64 a' (rotr64 (b' ^^^ a') r), rotr64 (b' ^^^ a') r)

/-- `MixLayer_inv`: MIX_inv on each neighbour pair (R145). -/
def mixLayerInv : List Nat → List Word → List Word
  | r :: rs, a :: b :: xs => (mixInv a b r).1 :: (mixInv a b r).2 :: mixLayerInv rs xs
  | _, xs => xs

/-- `Permute_inv`: `Y[PI_W[i]] <- Z[i]` (R145). -/
def permuteInv (n : Variant) (z : List Word) : List Word :=
  (List.range n.words).map fun k => z.getD (n.pi.idxOf k) 0

/-- `Inject_inv` (R145). -/
def injectInv (n : Variant) (ks ts : List Word) (s : Nat) (x : List Word) : List Word :=
  List.zipWith sub64 x (subkey n ks ts s)

/-- Rounds d-1 down to 0 undone, each fourth one preceded by its injection (the loop of R145). -/
def decryptRounds (n : Variant) (ks ts : List Word) : Nat → List Word → List Word
  | 0, x => x
  | d + 1, x =>
    let y := if (d + 1) % 4 = 0 then injectInv n ks ts ((d + 1) / 4) x else x
    decryptRounds n ks ts d (mixLayerInv (n.rotationRow d) (permuteInv n y))

/-- `Decrypt_W(ks, ts, C)` (R145). -/
def decrypt (n : Variant) (ks ts c : List Word) : List Word :=
  injectInv n ks ts 0 (decryptRounds n ks ts n.rounds c)

/-- `p_d`: PI_W applied d times to the identity (R143). -/
def slotOrder (n : Variant) : Nat → List Nat
  | 0 => List.range n.words
  | d + 1 => n.pi.map fun i => (slotOrder n d).getD i 0

/-- MIX applied in place: rotation amount j acts on the j-th pair of slots (R143). -/
def mixSlots : List Nat → List Nat → List Word → List Word
  | r :: rs, a :: b :: ps, x =>
    let m := mix (x.getD a 0) (x.getD b 0) r
    mixSlots rs ps ((x.set a m.1).set b m.2)
  | _, _, x => x

/-- The rounds of the in-place form: no word is moved, injections fall where `p_d` is the identity (R143). -/
def encryptRoundsInPlace (n : Variant) (ks ts : List Word) : Nat → List Word → List Word
  | 0, x => x
  | d + 1, x =>
    let y := mixSlots (n.rotationRow d) (slotOrder n d) (encryptRoundsInPlace n ks ts d x)
    if (d + 1) % 4 = 0 then inject n ks ts ((d + 1) / 4) y else y

/-- The cipher in its in-place form (R143). -/
def encryptInPlace (n : Variant) (ks ts b : List Word) : List Word :=
  encryptRoundsInPlace n ks ts n.rounds (inject n ks ts 0 b)

/-- The in-place pair tables, row d mod 4, as R166 prints them: the slots of pair 0, then of pair 1, and so on. -/
def pairTable : Variant → List (List Nat)
  | .n256 => [[0, 1, 2, 3], [0, 3, 2, 1], [0, 1, 2, 3], [0, 3, 2, 1]]
  | .n512 => [
      [0, 1, 2, 3, 4, 5, 6, 7], [2, 1, 4, 7, 6, 5, 0, 3],
      [4, 1, 6, 3, 0, 5, 2, 7], [6, 1, 0, 7, 2, 5, 4, 3]]
  | .n1024 => [
      [0, 1, 2, 3, 4, 5, 6, 7, 8, 9, 10, 11, 12, 13, 14, 15],
      [0, 9, 2, 13, 6, 11, 4, 15, 10, 7, 12, 3, 14, 5, 8, 1],
      [0, 7, 2, 5, 4, 3, 6, 1, 12, 15, 14, 13, 8, 11, 10, 9],
      [0, 15, 2, 11, 6, 13, 4, 9, 14, 1, 8, 5, 10, 3, 12, 7]]

end Sys2Proof.Machine
end

