-- ==== Sys2Proof/Safety.lean ====
section
/-! DEFINITION. The words claims are stated in: the invariant of the engine's state, runs, and the faults of the spec read
from a raw command word. -/

namespace Sys2Proof.Machine

/-! ### The invariant -/

/-- STATUS is consistent (R27, R211): FAULT is 1 exactly when a cause is recorded, and FOP is an opcode byte with which
that cause can be recorded, 0 while there is no fault. -/
abbrev State.statusConsistent (s : State) : Prop :=
  (s.fault = true ↔ s.cause ≠ .none) ∧ s.cause.recordedWith s.fop = true

/-- Every written byte of block memory has an address that exists (R57). -/
abbrev State.bmInside (s : State) : Prop := ∀ c ∈ s.bm, c.1 < s.config.bmBytes

/-- The invariant: `BM_BYTES` is in the range of R6, block memory keeps its form and lies inside `BM_BYTES`, and STATUS
is consistent. -/
abbrev State.Inv (s : State) : Prop := s.config.wf ∧ s.bm.wf ∧ s.bmInside ∧ s.statusConsistent

/-! ### Runs -/

/-- A state that a run from `s` reaches. -/
inductive Reaches (s : State) : State → Prop where
  | refl : Reaches s s
  | step {t u : State} : Reaches s t → Machine.step t = .next u → Reaches s u

/-- A state in which the engine is healthy: no fault is pending (R90). A run that ends in a state that is not has gone
wrong (R220). -/
abbrev State.Healthy (s : State) : Prop := s.fault = false

/-- The host's next action at the port is the command word `w`, and `rest` comes after it. -/
abbrev State.Presents (s : State) (w : Command) (rest : List HostInput) : Prop := s.pending = .command w :: rest

/-- Commands executed in order, stopping where one gives no next state. -/
def runCommands : List Instr → State → Host.Outcome State Fault Refusal
  | [], s => .next s
  | i :: is, s =>
    match exec i s with
    | .next t => runCommands is t
    | .fault r => .fault r
    | .refused r => .refused r

/-- The state in which a run of commands ends, if it ends well: a state with FAULT = 1 is never final, a run that ends in
one has gone wrong (R220). The fault is sticky, so it shows at the end unless an RST has cleared it. -/
def completes (is : List Instr) (s : State) : Option State :=
  match runCommands is s with
  | .next t => if t.fault then none else some t
  | .fault _ => none
  | .refused _ => none

/-! ### The faults of the spec, read from a raw command word

Written from the tables of R71, R73 and R217 with numbers, apart from the decoder and the meanings, so that a claim can
compare the two. -/

/-- The fourteen values of `op` that are not reserved (R73). -/
def legalOps : List (BitVec 8) :=
  [0x00, 0x01, 0x02, 0x08, 0x09, 0x0A, 0x0B, 0x0C, 0x10, 0x11, 0x12, 0x13, 0x14, 0x20]

/-- A bit that the format of a legal `op` reserves is 1 (R71, R75). -/
def reservedBitSet (w : Command) : Bool :=
  let idx := (idxField w).toNat
  let addr := (addrField w).toNat
  let data := (dataField w).toNat
  match (opField w).toNat with
  | 0x00 | 0x01 | 0x02 => decide (0 < idx ∨ 0 < addr ∨ 0 < data)
  | 0x08 => decide (4 ≤ idx ∨ 0 < addr ∨ 0 < data)
  | 0x09 => decide (16 ≤ idx ∨ 0 < addr)
  | 0x0A => decide (2 ≤ idx ∨ 0 < addr)
  | 0x0B => decide (16 ≤ idx ∨ 0 < addr ∨ 0 < data)
  | 0x0C => decide (2 ≤ idx ∨ 0 < addr ∨ 0 < data)
  | 0x10 => decide (0 < idx ∨ 256 ≤ data)
  | 0x11 => decide (0 < idx)
  | 0x12 | 0x13 | 0x14 => decide (0 < idx ∨ 0 < data)
  | 0x20 => decide (65536 ≤ data)
  | _ => false

/-- The bytes a command accesses in block memory: 1 for WRB and RDB, 8 for WRW and RDW, NB for STH, CNT * NB for PROC
(R54, R216); no other command accesses it. -/
def accessBytes (s : State) (w : Command) : Option Nat :=
  match (opField w).toNat with
  | 0x10 | 0x12 => some 1
  | 0x11 | 0x13 => some 8
  | 0x14 => some s.nsel.blockBytes
  | 0x20 => some ((dataField w).toNat % 65536 * s.nsel.blockBytes)
  | _ => none

/-- The cause a word raises in a healthy engine: the first test of R217 that fires, in the order it gives. -/
def firstCause (s : State) (w : Command) : Option Cause :=
  if opField w ∉ legalOps then some .illegalCmd
  else if reservedBitSet w then some .illegalCmd
  else if opField w = 0x08 ∧ (idxField w).toNat % 4 = 3 then some .badVariant
  else if (opField w = 0x09 ∨ opField w = 0x0B) ∧ s.nsel.words ≤ (idxField w).toNat % 16 then some .badIndex
  else if opField w = 0x20 ∧ (dataField w).toNat % 65536 = 0 then some .zeroBlocks
  else
    match accessBytes s w with
    | some n => if s.config.bmBytes < (addrField w).toNat + n then some .addrRange else none
    | none => none

end Sys2Proof.Machine
end

