-- ==== Sys2Proof/Certificates/Slice0/Obligations.lean ====
section
/-! DEFINITION. The statements for the provers, rule by rule of the spec. A statement about a state is about every state
unless it says otherwise; `s.Healthy` is STATUS.FAULT = 0, the premise under which a command's own rule runs (R90);
`s.Presents w rest` says that `w` is the next word at the command port. -/

open Sys2Proof Sys2Proof.Machine

/-! ### Encoding (`30_encoding.md`) -/

/-- Decoding the encoding of any well-formed command gives it back, with every operand at every value its field admits
(R70, R71, R73, R78). -/
def Obligations.EncodedCommandsDecodeToThemselves : Prop :=
  ∀ i : Instr, i.WellFormed → decode (encode i) = .ok i

/-- Each word has one meaning: a word that decodes is the encoding of the well-formed command it decodes to. -/
def Obligations.DecodedWordsEncodeToThemselves : Prop :=
  ∀ (w : Command) (i : Instr), decode w = .ok i → i.WellFormed ∧ encode i = w

/-- R74: every word whose `op` is not one of the fourteen of R73 raises ILLEGAL_CMD whatever its other fields hold, and
there are 242 such values of `op`. -/
def Obligations.ReservedOpcodesRaiseIllegalCmd : Prop :=
  (∀ (s : State) (w : Command) (rest : List HostInput), s.Presents w rest → s.Healthy → opField w ∉ legalOps →
    step s = .next { s with
      pending := rest, fault := true, cause := .illegalCmd, fop := opField w,
      responses := { err := true, data := 0 } :: s.responses }) ∧
  ((List.range 256).filter fun b => decide (BitVec.ofNat 8 b ∉ legalOps)).length = 242

/-- R75: every word with a legal `op` and a bit set that its format reserves raises ILLEGAL_CMD; SETN with code 3 is not
such a word. -/
def Obligations.ReservedBitsRaiseIllegalCmd : Prop :=
  (∀ (s : State) (w : Command) (rest : List HostInput), s.Presents w rest → s.Healthy → opField w ∈ legalOps →
    reservedBitSet w = true →
    step s = .next { s with
      pending := rest, fault := true, cause := .illegalCmd, fop := opField w,
      responses := { err := true, data := 0 } :: s.responses }) ∧
  (∀ (s : State) (rest : List HostInput), s.Presents (mkCommand 0x08 3 0 0) rest → s.Healthy →
    step s = .next { s with
      pending := rest, fault := true, cause := .badVariant, fop := 0x08,
      responses := { err := true, data := 0 } :: s.responses })

/-- The decoder agrees with the opcode table: a word decodes to the command of a row exactly when it matches the row under
its mask. -/
def Obligations.TableRowsSelectTheirCommands : Prop :=
  ∀ (w : Command) (o : Opcode),
    (∃ i, decode w = .ok i ∧ i.opcode = o) ↔ w &&& o.tableMask = o.tableMatch

/-- Words written out from the spec's encoding decode to what they stand for (V10), and words next to them do not (V11). -/
def Obligations.WrittenOutWordsDecode : Prop :=
  decode 0x080200000000000000000000 = .ok (.setn 2) ∧
  decode 0x090F00000123456789ABCDEF = .ok (.ldh 15 0x0123456789ABCDEF) ∧
  decode 0x0A010000FEDCBA9876543210 = .ok (.ldt .t1 0xFEDCBA9876543210) ∧
  decode 0x0B0900000000000000000000 = .ok (.rdh 9) ∧
  decode 0x1000123400000000000000AB = .ok (.wrb 0x1234 0xAB) ∧
  decode 0x1100FFF88000000000000001 = .ok (.wrw 0xFFF8 0x8000000000000001) ∧
  decode 0x140003800000000000000000 = .ok (.sth 0x0380) ∧
  decode 0x204001400000000000000003 = .ok (.proc 0x0140 3 64) ∧
  decode 0x030000000000000000000000 = .error (.reservedOpcode 0x03) ∧
  decode 0x091000000000000000000000 = .error (.reservedBits .ldh) ∧
  decode 0x200000000000000000010001 = .error (.reservedBits .proc)

/-- The operands a command is written with (R80), as numbers, assemble back to that command; nothing is said of the text
that spells the numbers, nor of SETN with the reserved code 3, which R80 gives no text form. -/
def Obligations.WrittenOperandsAssembleBack : Prop :=
  ∀ (i : Instr) (ns : List Nat), i.WellFormed → operandNumbers i = some ns →
    assembleOperands i.opcode ns = some i

/-- R81: each pseudo-instruction expands to the commands shown, in order, with W of the variant in force, for all word
addresses that a command can carry; the responses to `rdhv` are the live words in order. -/
def Obligations.PseudoInstructionsExpand : Prop :=
  ∀ n : Variant,
    (∀ t0 t1, (Pseudo.ldtw t0 t1).expand n = some [.ldt .t0 t0, .ldt .t1 t1]) ∧
    (∀ vs : List Word, vs.length = n.words →
      ∃ is, (Pseudo.ldhv vs).expand n = some is ∧ is.length = n.words ∧
        ∀ i < n.words, is[i]? = some (.ldh i (vs.getD i 0))) ∧
    (∃ is, Pseudo.ldhz.expand n = some is ∧ is.length = n.words ∧ ∀ i < n.words, is[i]? = some (.ldh i 0)) ∧
    (∀ (a : Nat) (ws : List Word), (∀ k < ws.length, a + 8 * k < 65536) →
      ∃ is, (Pseudo.wrblk a ws).expand n = some is ∧ is.length = ws.length ∧
        ∀ k < ws.length, is[k]? = some (.wrw (BitVec.ofNat 16 (a + 8 * k)) (ws.getD k 0))) ∧
    (∀ a m : Nat, (∀ k < m, a + 8 * k < 65536) →
      ∃ is, (Pseudo.wrz a (8 * m)).expand n = some is ∧ is.length = m ∧
        ∀ k < m, is[k]? = some (.wrw (BitVec.ofNat 16 (a + 8 * k)) 0)) ∧
    (∃ is, Pseudo.rdhv.expand n = some is ∧ is.length = n.words ∧ ∀ i < n.words, is[i]? = some (.rdh i)) ∧
    (∀ s : State, s.Healthy → s.nsel = n →
      ∃ is t, Pseudo.rdhv.expand n = some is ∧ runCommands is s = .next t ∧
        t.responses = (((List.range n.words).map fun i => ({ err := false, data := s.readH i } : Response)).reverse ++
          s.responses)) ∧
    (∀ p add t1, (Pseudo.ubi1 p add t1).expand n = some [.ldt .t0 0, .ldt .t1 t1, .proc p 1 add])

/-! ### One step (`00_scope.md`, `30_encoding.md`, `60_exceptions.md`) -/

/-- A step runs the decoded command: the word at the port is taken from it, and what happens is the command's meaning. -/
def Obligations.StepRunsTheDecodedCommand : Prop :=
  ∀ (s : State) (w : Command) (rest : List HostInput) (i : Instr), s.Presents w rest → decode w = .ok i →
    step s = exec i { s with pending := rest }

/-- R219: while STATUS.FAULT = 1 a well-formed RDST answers the status word, a well-formed RST resets, and every other
word is refused with no state change at all. -/
def Obligations.FaultedEngineRefusesAllButRdstAndRst : Prop :=
  ∀ (s : State) (w : Command) (rest : List HostInput), s.Presents w rest → s.fault = true →
    (w = mkCommand 0x02 0 0 0 →
      step s = .next { s with
        pending := rest, responses := { err := false, data := s.status } :: s.responses }) ∧
    (w = mkCommand 0x01 0 0 0 →
      step s = .next { s with
        h := Vector.replicate 16 0, t0 := 0, t1 := 0, nsel := .n256, fault := false, cause := .none, fop := 0,
        pending := rest, responses := { err := false, data := 0 } :: s.responses }) ∧
    (w ≠ mkCommand 0x02 0 0 0 → w ≠ mkCommand 0x01 0 0 0 →
      step s = .next { s with pending := rest, responses := { err := true, data := 0 } :: s.responses })

/-- With nothing at the port the engine is idle: the model's choice (log entry 2), between commands (R228). -/
def Obligations.IdleEngineStaysAsItIs : Prop :=
  ∀ s : State, s.pending = [] → step s = .next s

/-- R34, both columns: the state after hardware reset has H, T and STATUS zero and NSEL at N = 256; RST leaves the same and
block memory unchanged. That an unspecified byte of block memory is the free value of an unwritten byte is the model's
rendering of R34 (log entry 5). -/
def Obligations.BothResetsLeaveTheResetValues : Prop :=
  ((∀ i, State.reset.readH i = 0) ∧ State.reset.t0 = 0 ∧ State.reset.t1 = 0 ∧ State.reset.nsel = .n256 ∧
    State.reset.fault = false ∧ State.reset.cause = .none ∧ State.reset.fop = 0 ∧ State.reset.faultO = false ∧
    ∀ a, State.reset.readByte a = Config.unwrittenByte State.reset.bmEpoch a) ∧
  (∀ s : State, ∃ t, exec .rst s = .next t ∧
    (∀ i, t.readH i = 0) ∧ t.t0 = 0 ∧ t.t1 = 0 ∧ t.nsel = .n256 ∧
    t.fault = false ∧ t.cause = .none ∧ t.fop = 0 ∧ t.faultO = false ∧
    ∀ a, t.readByte a = s.readByte a)

/-- Hardware reset at the port (the model's choice of when it lands, log entry 6): the values of R34, block memory
unspecified anew (the free value under the next epoch), no response, and the rest of the port as it was. -/
def Obligations.HardwareResetAtThePort : Prop :=
  ∀ (s : State) (rest : List HostInput), s.pending = .hardwareReset :: rest →
    ∃ t, step s = .next t ∧
      (∀ i, t.readH i = 0) ∧ t.t0 = 0 ∧ t.t1 = 0 ∧ t.nsel = .n256 ∧
      t.fault = false ∧ t.cause = .none ∧ t.fop = 0 ∧
      (∀ a, t.readByte a = Config.unwrittenByte (s.bmEpoch + 1) a) ∧
      t.config = s.config ∧ t.pending = rest ∧ t.responses = s.responses

/-- No state makes the engine stop: every step answers a next state. -/
def Obligations.EveryStepAnswersANextState : Prop :=
  ∀ s : State, ∃ t, step s = .next t

/-- R72: every command is answered by one response; with ERR = 1 the data is 0 and nothing but STATUS has changed; with
ERR = 0 the data is 0 unless the command is RDH, RDT, RDST, RDB or RDW. -/
def Obligations.EveryCommandGetsOneResponse : Prop :=
  ∀ (s t : State) (w : Command) (rest : List HostInput), s.Presents w rest → step s = .next t →
    ∃ r : Response, t.responses = r :: s.responses ∧ t.pending = rest ∧
      (r.err = true → r.data = 0 ∧
        t = { s with
          pending := rest, responses := t.responses, fault := t.fault, cause := t.cause, fop := t.fop }) ∧
      (r.err = false → r.data ≠ 0 →
        opField w = 0x0B ∨ opField w = 0x0C ∨ opField w = 0x02 ∨ opField w = 0x12 ∨ opField w = 0x13)

/-! ### Control and register access (`40_commands_state.md`) -/

/-- R91: NOP answers 0:0 and does nothing else; any reserved bit raises ILLEGAL_CMD; it is refused while a fault is pending
and does not clear it. -/
def Obligations.NopDoesNothing : Prop :=
  (∀ s : State, s.Healthy →
    exec .nop s = .next { s with responses := { err := false, data := 0 } :: s.responses }) ∧
  (∀ (s : State) (rest : List HostInput) (idx : BitVec 8) (addr : Addr) (data : Word),
    s.Presents (mkCommand 0x00 idx addr data) rest → s.Healthy →
    step s = .next (
      if idx ≠ 0 ∨ addr ≠ 0 ∨ data ≠ 0 then State.raise { s with pending := rest } .illegalCmd 0x00
      else { s with pending := rest, responses := { err := false, data := 0 } :: s.responses })) ∧
  (∀ s : State, s.fault = true →
    exec .nop s = .next { s with responses := { err := true, data := 0 } :: s.responses })

/-- R92: RST clears all sixteen words of H, T, NSEL and STATUS and leaves BM, whether a fault is pending or not; with a
reserved bit set it raises ILLEGAL_CMD, or is refused while a fault is pending. -/
def Obligations.RstClearsAllButBlockMemory : Prop :=
  (∀ s : State,
    exec .rst s = .next { s with
      h := Vector.replicate 16 0, t0 := 0, t1 := 0, nsel := .n256, fault := false, cause := .none, fop := 0,
      responses := { err := false, data := 0 } :: s.responses }) ∧
  (∀ (s : State) (rest : List HostInput) (idx : BitVec 8) (addr : Addr) (data : Word),
    s.Presents (mkCommand 0x01 idx addr data) rest →
    step s = .next (
      if idx ≠ 0 ∨ addr ≠ 0 ∨ data ≠ 0 then
        (if s.fault then { s with pending := rest, responses := { err := true, data := 0 } :: s.responses }
        else State.raise { s with pending := rest } .illegalCmd 0x01)
      else { s with
        h := Vector.replicate 16 0, t0 := 0, t1 := 0, nsel := .n256, fault := false, cause := .none, fop := 0,
        pending := rest, responses := { err := false, data := 0 } :: s.responses }))

/-- R93: RDST answers the status word, FAULT at bit 0, CAUSE at 7:4, NSEL at 9:8, FOP at 23:16 and every other bit 0, and
changes nothing, whether a fault is pending or not; with a reserved bit set it faults or is refused, as RST. -/
def Obligations.RdstAnswersTheStatusWord : Prop :=
  (∀ s : State,
    ∃ v : Word,
      v.toNat = s.fault.toNat + 16 * s.cause.code.toNat + 256 * s.nsel.code.toNat + 65536 * s.fop.toNat ∧
      exec .rdst s = .next { s with responses := { err := false, data := v } :: s.responses }) ∧
  (∀ (s : State) (rest : List HostInput) (idx : BitVec 8) (addr : Addr) (data : Word),
    s.Presents (mkCommand 0x02 idx addr data) rest →
    step s = .next (
      if idx ≠ 0 ∨ addr ≠ 0 ∨ data ≠ 0 then
        (if s.fault then { s with pending := rest, responses := { err := true, data := 0 } :: s.responses }
        else State.raise { s with pending := rest } .illegalCmd 0x02)
      else { s with pending := rest, responses := { err := false, data := s.status } :: s.responses }))

/-- R94: SETN writes CFG.NSEL with 0, 1 or 2 and nothing else; code 3 raises BAD_VARIANT; a reserved bit raises
ILLEGAL_CMD. W, NB and R_total take the values of R5. -/
def Obligations.SetnSelectsTheVariant : Prop :=
  (∀ (s : State) (c : Nat) (n : Variant), s.Healthy → c = n.code.toNat →
    exec (.setn c) s = .next { s with nsel := n, responses := { err := false, data := 0 } :: s.responses }) ∧
  (∀ (s : State) (rest : List HostInput) (idx : BitVec 8) (addr : Addr) (data : Word),
    s.Presents (mkCommand 0x08 idx addr data) rest → s.Healthy →
    step s = .next (
      if 4 ≤ idx.toNat ∨ addr ≠ 0 ∨ data ≠ 0 then State.raise { s with pending := rest } .illegalCmd 0x08
      else if idx = 3 then State.raise { s with pending := rest } .badVariant 0x08
      else { s with
        nsel := if idx = 0 then .n256 else if idx = 1 then .n512 else .n1024,
        pending := rest, responses := { err := false, data := 0 } :: s.responses })) ∧
  ([Variant.n256, .n512, .n1024].map fun n => (n.words, n.blockBytes, n.rounds)) =
    [(4, 32, 72), (8, 64, 72), (16, 128, 80)]

/-- R95: LDH loads one live chaining word and nothing else; an index of W or more raises BAD_INDEX; a reserved bit raises
ILLEGAL_CMD. -/
def Obligations.LdhLoadsOneChainingWord : Prop :=
  (∀ (s : State) (i : Nat) (v : Word), s.Healthy → i < s.nsel.words →
    exec (.ldh i v) s = .next { s with
      h := s.h.setIfInBounds i v, responses := { err := false, data := 0 } :: s.responses }) ∧
  (∀ (s : State) (rest : List HostInput) (idx : BitVec 8) (addr : Addr) (v : Word),
    s.Presents (mkCommand 0x09 idx addr v) rest → s.Healthy →
    step s = .next (
      if 16 ≤ idx.toNat ∨ addr ≠ 0 then State.raise { s with pending := rest } .illegalCmd 0x09
      else if s.nsel.words ≤ idx.toNat then State.raise { s with pending := rest } .badIndex 0x09
      else { s with
        h := s.h.setIfInBounds idx.toNat v,
        pending := rest, responses := { err := false, data := 0 } :: s.responses }))

/-- R96: LDT loads one tweak word with any value and nothing else; its only fault is ILLEGAL_CMD for a reserved bit. -/
def Obligations.LdtLoadsOneTweakWord : Prop :=
  (∀ (s : State) (v : Word), s.Healthy →
    exec (.ldt .t0 v) s = .next { s with t0 := v, responses := { err := false, data := 0 } :: s.responses } ∧
    exec (.ldt .t1 v) s = .next { s with t1 := v, responses := { err := false, data := 0 } :: s.responses }) ∧
  (∀ (s : State) (rest : List HostInput) (idx : BitVec 8) (addr : Addr) (v : Word),
    s.Presents (mkCommand 0x0A idx addr v) rest → s.Healthy →
    step s = .next (
      if 2 ≤ idx.toNat ∨ addr ≠ 0 then State.raise { s with pending := rest } .illegalCmd 0x0A
      else if idx = 0 then { s with
        t0 := v, pending := rest, responses := { err := false, data := 0 } :: s.responses }
      else { s with
        t1 := v, pending := rest, responses := { err := false, data := 0 } :: s.responses }))

/-- R97: RDH answers one live chaining word and changes no state; an index of W or more raises BAD_INDEX; a reserved bit
raises ILLEGAL_CMD. -/
def Obligations.RdhAnswersOneChainingWord : Prop :=
  (∀ (s : State) (i : Nat), s.Healthy → i < s.nsel.words →
    ∃ hi : i < 16, exec (.rdh i) s = .next { s with
      responses := { err := false, data := s.h[i] } :: s.responses }) ∧
  (∀ (s : State) (rest : List HostInput) (idx : BitVec 8) (addr : Addr) (data : Word),
    s.Presents (mkCommand 0x0B idx addr data) rest → s.Healthy →
    step s = .next (
      if 16 ≤ idx.toNat ∨ addr ≠ 0 ∨ data ≠ 0 then State.raise { s with pending := rest } .illegalCmd 0x0B
      else if s.nsel.words ≤ idx.toNat then State.raise { s with pending := rest } .badIndex 0x0B
      else { s with
        pending := rest, responses := { err := false, data := s.readH idx.toNat } :: s.responses }))

/-- R98: RDT answers one tweak word and changes no state; its only fault is ILLEGAL_CMD for a reserved bit. -/
def Obligations.RdtAnswersOneTweakWord : Prop :=
  (∀ s : State, s.Healthy →
    exec (.rdt .t0) s = .next { s with responses := { err := false, data := s.t0 } :: s.responses } ∧
    exec (.rdt .t1) s = .next { s with responses := { err := false, data := s.t1 } :: s.responses }) ∧
  (∀ (s : State) (rest : List HostInput) (idx : BitVec 8) (addr : Addr) (data : Word),
    s.Presents (mkCommand 0x0C idx addr data) rest → s.Healthy →
    step s = .next (
      if 2 ≤ idx.toNat ∨ addr ≠ 0 ∨ data ≠ 0 then State.raise { s with pending := rest } .illegalCmd 0x0C
      else { s with
        pending := rest,
        responses := { err := false, data := if idx = 0 then s.t0 else s.t1 } :: s.responses }))

/-! ### Block memory (`41_commands_memory.md`, `20_memory.md`) -/

/-- R110: WRB stores one byte and nothing else; a value above 255 or a reserved `idx` bit raises ILLEGAL_CMD; an address
at or beyond BM_BYTES raises ADDR_RANGE. -/
def Obligations.WrbStoresOneByte : Prop :=
  (∀ (s : State) (a : Addr) (b : Byte), s.Healthy → a.toNat + 1 ≤ s.config.bmBytes →
    ∃ t, exec (.wrb a b) s = .next t ∧ t.readByte a.toNat = b ∧
      (∀ x, x ≠ a.toNat → t.readByte x = s.readByte x) ∧
      t = { s with bm := t.bm, responses := { err := false, data := 0 } :: s.responses }) ∧
  (∀ (s : State) (rest : List HostInput) (idx : BitVec 8) (a : Addr) (data : Word),
    s.Presents (mkCommand 0x10 idx a data) rest → s.Healthy →
    step s =
      if idx ≠ 0 ∨ 256 ≤ data.toNat then .next (State.raise { s with pending := rest } .illegalCmd 0x10)
      else if s.config.bmBytes ≤ a.toNat then .next (State.raise { s with pending := rest } .addrRange 0x10)
      else exec (.wrb a (BitVec.ofNat 8 data.toNat)) { s with pending := rest })

/-- R111: WRW stores the eight bytes of a word, least significant first, at any address in range, and nothing else; a
reserved `idx` bit raises ILLEGAL_CMD; an access past BM_BYTES raises ADDR_RANGE and writes no byte. -/
def Obligations.WrwStoresOneWord : Prop :=
  (∀ (s : State) (a : Addr) (v : Word), s.Healthy → a.toNat + 8 ≤ s.config.bmBytes →
    ∃ t, exec (.wrw a v) s = .next t ∧
      (∀ k < 8, t.readByte (a.toNat + k) = v.extractLsb' (8 * k) 8) ∧
      (∀ x, x < a.toNat ∨ a.toNat + 8 ≤ x → t.readByte x = s.readByte x) ∧
      t = { s with bm := t.bm, responses := { err := false, data := 0 } :: s.responses }) ∧
  (∀ (s : State) (rest : List HostInput) (idx : BitVec 8) (a : Addr) (v : Word),
    s.Presents (mkCommand 0x11 idx a v) rest → s.Healthy →
    step s =
      if idx ≠ 0 then .next (State.raise { s with pending := rest } .illegalCmd 0x11)
      else if s.config.bmBytes < a.toNat + 8 then .next (State.raise { s with pending := rest } .addrRange 0x11)
      else exec (.wrw a v) { s with pending := rest })

/-- R112: RDB answers the zero-extended byte at an address and changes no state; a reserved bit raises ILLEGAL_CMD; an
address out of range raises ADDR_RANGE. -/
def Obligations.RdbAnswersOneByte : Prop :=
  (∀ (s : State) (a : Addr), s.Healthy → a.toNat + 1 ≤ s.config.bmBytes →
    exec (.rdb a) s = .next { s with
      responses := { err := false, data := (s.readByte a.toNat).zeroExtend 64 } :: s.responses }) ∧
  (∀ (s : State) (rest : List HostInput) (idx : BitVec 8) (a : Addr) (data : Word),
    s.Presents (mkCommand 0x12 idx a data) rest → s.Healthy →
    step s =
      if idx ≠ 0 ∨ data ≠ 0 then .next (State.raise { s with pending := rest } .illegalCmd 0x12)
      else if s.config.bmBytes ≤ a.toNat then .next (State.raise { s with pending := rest } .addrRange 0x12)
      else exec (.rdb a) { s with pending := rest })

/-- R113: RDW answers the word whose bytes, least significant first, are the eight from an address on, and changes no
state; a reserved bit raises ILLEGAL_CMD; an access past BM_BYTES raises ADDR_RANGE. -/
def Obligations.RdwAnswersOneWord : Prop :=
  (∀ (s : State) (a : Addr), s.Healthy → a.toNat + 8 ≤ s.config.bmBytes →
    ∃ v : Word, (∀ k < 8, v.extractLsb' (8 * k) 8 = s.readByte (a.toNat + k)) ∧
      exec (.rdw a) s = .next { s with responses := { err := false, data := v } :: s.responses }) ∧
  (∀ (s : State) (rest : List HostInput) (idx : BitVec 8) (a : Addr) (data : Word),
    s.Presents (mkCommand 0x13 idx a data) rest → s.Healthy →
    step s =
      if idx ≠ 0 ∨ data ≠ 0 then .next (State.raise { s with pending := rest } .illegalCmd 0x13)
      else if s.config.bmBytes < a.toNat + 8 then .next (State.raise { s with pending := rest } .addrRange 0x13)
      else exec (.rdw a) { s with pending := rest })

/-- R114, R63: STH stores H[0..W-1], byte 8*i + k being bits 8k+7:8k of H[i], in exactly NB bytes, and changes nothing
else; a reserved bit raises ILLEGAL_CMD; an access past BM_BYTES raises ADDR_RANGE and writes nothing. -/
def Obligations.SthStoresTheChainingState : Prop :=
  (∀ (s : State) (a : Addr), s.Healthy → a.toNat + 8 * s.nsel.words ≤ s.config.bmBytes →
    ∃ t, exec (.sth a) s = .next t ∧
      (∀ i < s.nsel.words, ∀ k < 8,
        t.readByte (a.toNat + (8 * i + k)) = (s.readH i).extractLsb' (8 * k) 8) ∧
      (∀ x, x < a.toNat ∨ a.toNat + 8 * s.nsel.words ≤ x → t.readByte x = s.readByte x) ∧
      t = { s with bm := t.bm, responses := { err := false, data := 0 } :: s.responses }) ∧
  (∀ (s : State) (rest : List HostInput) (idx : BitVec 8) (a : Addr) (data : Word),
    s.Presents (mkCommand 0x14 idx a data) rest → s.Healthy →
    step s =
      if idx ≠ 0 ∨ data ≠ 0 then .next (State.raise { s with pending := rest } .illegalCmd 0x14)
      else if s.config.bmBytes < a.toNat + 8 * s.nsel.words then
        .next (State.raise { s with pending := rest } .addrRange 0x14)
      else exec (.sth a) { s with pending := rest })

/-- R52: MemRead of 1 or 8 bytes is the sum of its bytes by powers of 256. -/
def Obligations.MemReadIsTheSumOfItsBytes : Prop :=
  ∀ (s : State) (a n : Nat), n = 1 ∨ n = 8 →
    (s.memRead a n).toNat = ((List.range n).map fun k => (s.readByte (a + k)).toNat * 2 ^ (8 * k)).sum

/-- R53: MemWrite of 1 or 8 bytes writes byte k with bits 8k+7:8k, and no other byte changes. -/
def Obligations.MemWriteChangesItsBytesOnly : Prop :=
  ∀ (s : State) (a n : Nat) (v : Word), n = 1 ∨ n = 8 →
    (∀ k < n, (s.memWrite a n v).readByte (a + k) = v.extractLsb' (8 * k) 8) ∧
    (∀ x, x < a ∨ a + n ≤ x → (s.memWrite a n v).readByte x = s.readByte x)

/-- Every mix of widths sees the same bytes (R64, which the spec marks as derived from R52 and R53): a byte written by WRB
at a+k is bits 8k+7:8k of the word RDW reads at a, and a word written by WRW at a is read back by RDW whole and by RDB at
a+k as those bits. -/
def Obligations.MixedWidthsSeeTheSameBytes : Prop :=
  ∀ (s : State) (a ak : Addr) (k : Nat), s.Healthy → a.toNat + 8 ≤ s.config.bmBytes → k < 8 →
    ak.toNat = a.toNat + k →
    (∀ b : Byte, ∃ (t : State) (v : Word), exec (.wrb ak b) s = .next t ∧
      exec (.rdw a) t = .next { t with responses := { err := false, data := v } :: t.responses } ∧
      v.extractLsb' (8 * k) 8 = b) ∧
    (∀ v : Word, ∃ t : State, exec (.wrw a v) s = .next t ∧
      exec (.rdw a) t = .next { t with responses := { err := false, data := v } :: t.responses } ∧
      exec (.rdb ak) t = .next { t with
        responses := { err := false, data := (v.extractLsb' (8 * k) 8).zeroExtend 64 } :: t.responses })

/-- R55: no access needs alignment. WRW, RDW, STH and PROC at any address in range are carried out: ERR = 0. -/
def Obligations.AccessesInRangeNeedNoAlignment : Prop :=
  ∀ (s : State) (a : Addr), s.Healthy →
    (a.toNat + 8 ≤ s.config.bmBytes →
      (∀ v, ∃ t, exec (.wrw a v) s = .next t ∧ t.fault = false ∧
        t.responses = { err := false, data := 0 } :: s.responses) ∧
      (∃ (t : State) (v : Word), exec (.rdw a) s = .next t ∧ t.fault = false ∧
        t.responses = { err := false, data := v } :: s.responses)) ∧
    (a.toNat + s.nsel.blockBytes ≤ s.config.bmBytes →
      ∃ t, exec (.sth a) s = .next t ∧ t.fault = false ∧
        t.responses = { err := false, data := 0 } :: s.responses) ∧
    (∀ (cnt : Nat) (add : Byte), cnt ≠ 0 → a.toNat + cnt * s.nsel.blockBytes ≤ s.config.bmBytes →
      ∃ t, exec (.proc a cnt add) s = .next t ∧ t.fault = false ∧
        t.responses = { err := false, data := 0 } :: s.responses)

/-- R216: an access of n bytes at a with a + n > BM_BYTES raises ADDR_RANGE: n = 1 for WRB and RDB, 8 for WRW and RDW, NB
for STH, CNT * NB for PROC. -/
def Obligations.AccessesOutOfRangeRaiseAddrRange : Prop :=
  ∀ (s : State) (a : Addr), s.Healthy →
    (s.config.bmBytes < a.toNat + 1 →
      (∀ b, exec (.wrb a b) s = .next (s.raise .addrRange 0x10)) ∧
      exec (.rdb a) s = .next (s.raise .addrRange 0x12)) ∧
    (s.config.bmBytes < a.toNat + 8 →
      (∀ v, exec (.wrw a v) s = .next (s.raise .addrRange 0x11)) ∧
      exec (.rdw a) s = .next (s.raise .addrRange 0x13)) ∧
    (s.config.bmBytes < a.toNat + s.nsel.blockBytes →
      exec (.sth a) s = .next (s.raise .addrRange 0x14)) ∧
    (∀ (cnt : Nat) (add : Byte), cnt ≠ 0 → s.config.bmBytes < a.toNat + cnt * s.nsel.blockBytes →
      exec (.proc a cnt add) s = .next (s.raise .addrRange 0x20))

/-! ### PROC (`45_ubi_iterator.md`) -/

/-- R170: PROC runs UbiBlock on CNT blocks NB bytes apart, answers 0 and touches nothing but H[0..W-1], T[0] and bit 62
of T[1]; CNT = 0 raises ZERO_BLOCKS before the range is tested; blocks past BM_BYTES raise ADDR_RANGE with nothing
processed; a reserved bit raises ILLEGAL_CMD. -/
def Obligations.ProcIteratesUbiBlock : Prop :=
  (∀ (s : State) (ptr : Addr) (cnt : Nat) (add : Byte), s.Healthy → cnt ≠ 0 →
    ptr.toNat + cnt * s.nsel.blockBytes ≤ s.config.bmBytes →
    ∃ u : Nat → State, u 0 = s ∧
      (∀ k < cnt, u (k + 1) = (u k).ubiBlock (ptr.toNat + k * s.nsel.blockBytes) add) ∧
      exec (.proc ptr cnt add) s = .next { s with
        h := (u cnt).h, t0 := (u cnt).t0, t1 := (u cnt).t1,
        responses := { err := false, data := 0 } :: s.responses } ∧
      (∀ i, s.nsel.words ≤ i → (u cnt).readH i = s.readH i) ∧
      (∀ j, j ≠ 62 → (u cnt).t1.getLsbD j = s.t1.getLsbD j)) ∧
  (∀ (s : State) (rest : List HostInput) (idx : BitVec 8) (ptr : Addr) (data : Word),
    s.Presents (mkCommand 0x20 idx ptr data) rest → s.Healthy →
    step s =
      if 65536 ≤ data.toNat then .next (State.raise { s with pending := rest } .illegalCmd 0x20)
      else if data = 0 then .next (State.raise { s with pending := rest } .zeroBlocks 0x20)
      else if s.config.bmBytes < ptr.toNat + data.toNat * (8 * s.nsel.words) then
        .next (State.raise { s with pending := rest } .addrRange 0x20)
      else exec (.proc ptr data.toNat idx) { s with pending := rest })

/-- R171: one UBI step. T[0] advances, the block is read, H becomes the encryption of the block under the old H and the
tweak (advanced T[0], T[1] as it stood), xor the block, and then bit 62 of T[1] is cleared. -/
def Obligations.ProcOfOneBlockIsOneUbiStep : Prop :=
  ∀ (s : State) (ptr : Addr) (add : Byte), s.Healthy →
    ptr.toNat + s.nsel.blockBytes ≤ s.config.bmBytes →
    let keyWords := (List.range s.nsel.words).map s.readH
    let block := (List.range s.nsel.words).map fun i => s.memRead (ptr.toNat + 8 * i) 8
    let cipher := encrypt s.nsel (keySchedule keyWords)
      (tweakSchedule (s.t0 + add.zeroExtend 64) s.t1) block
    ∃ t, exec (.proc ptr 1 add) s = .next t ∧
      t.t0 = s.t0 + add.zeroExtend 64 ∧ t.t1 = s.t1 &&& 0xBFFFFFFFFFFFFFFF ∧
      (∀ i < s.nsel.words, t.readH i = cipher.getD i 0 ^^^ block.getD i 0) ∧
      (∀ i, s.nsel.words ≤ i → t.readH i = s.readH i) ∧
      t = { s with
        h := t.h, t0 := t.t0, t1 := t.t1, responses := { err := false, data := 0 } :: s.responses }

/-- R172: the feed-forward law. After a block, H' xor B is the encryption of B under the pre-block H and the tweak of the
block, word by word over the live words. -/
def Obligations.FeedForwardRecoversTheCiphertext : Prop :=
  ∀ (s : State) (p : Nat) (add : Byte),
    List.zipWith (· ^^^ ·) (s.ubiBlock p add).liveH (s.blockWords p) =
      threefish s.nsel s.liveH (add64 s.t0 (add.zeroExtend 64)) s.t1 (s.blockWords p)

/-- R173: the byte counter. PROC of CNT blocks adds ADD to T[0] once for each block, modulo 2^64, and nothing is carried
into T[1]. -/
def Obligations.ProcAdvancesTheByteCounter : Prop :=
  ∀ (s : State) (ptr : Addr) (cnt : Nat) (add : Byte), s.Healthy → cnt ≠ 0 →
    ptr.toNat + cnt * s.nsel.blockBytes ≤ s.config.bmBytes →
    ∃ t, exec (.proc ptr cnt add) s = .next t ∧
      t.t0.toNat = (s.t0.toNat + cnt * add.toNat) % 2 ^ 64 ∧
      ∀ j, j ≠ 62 → t.t1.getLsbD j = s.t1.getLsbD j

/-- R174: the first flag. After a block bit 62 of T[1] is 0 and every other bit keeps its value; so in one PROC block 0
is encrypted with the flag as it was and every later block with it clear. -/
def Obligations.FirstFlagIsClearedAfterEachBlock : Prop :=
  (∀ (s : State) (p : Nat) (add : Byte),
    (s.ubiBlock p add).t1.getLsbD 62 = false ∧
    ∀ j, j ≠ 62 → (s.ubiBlock p add).t1.getLsbD j = s.t1.getLsbD j) ∧
  (∀ (s : State) (p : Nat) (add : Byte) (k : Nat),
    (s.ubiBlocks p k add).t1 = if k = 0 then s.t1 else s.t1 &&& 0xBFFFFFFFFFFFFFFF)

/-- One PROC of CNT blocks leaves the same state as the CNT PROCs of one block each, but for the responses (R176, which the
spec marks as derived from R170 and R171). -/
def Obligations.ProcOfManyBlocksIsManyProcs : Prop :=
  ∀ (s : State) (ptr : Addr) (cnt : Nat) (add : Byte), s.Healthy → s.config.wf → cnt ≠ 0 →
    ptr.toNat + cnt * s.nsel.blockBytes ≤ s.config.bmBytes →
    ∃ t u, exec (.proc ptr cnt add) s = .next t ∧
      runCommands ((List.range cnt).map fun k =>
        .proc (BitVec.ofNat 16 (ptr.toNat + k * s.nsel.blockBytes)) 1 add) s = .next u ∧
      u = { t with responses := List.replicate cnt { err := false, data := 0 } ++ s.responses }

/-- Within one PROC with ADD > 0 no two blocks run under the same tweak: the tweaks of blocks j and k differ in T[0]
(R240; what UBI demands of every permutation call, R13). -/
def Obligations.BlocksOfOneProcHaveDistinctTweaks : Prop :=
  ∀ (s : State) (p j k : Nat) (add : Byte), add ≠ 0 → j < k → k < 65536 →
    ((s.ubiBlocks p j add).advanceT0 add).t0 ≠ ((s.ubiBlocks p k add).advanceT0 add).t0

/-! ### The permutation (`42_key_tweak_schedule.md`, `43_threefish_permutation.md`, `44_constants.md`) -/

/-- The left rotation of R8: its formula on numbers, and bit i moves to bit (i + r) mod 64. -/
def Obligations.RotationMovesEachBit : Prop :=
  ∀ (x : Word) (r : Nat), 1 ≤ r → r ≤ 63 →
    (rotl64 x r).toNat = x.toNat * 2 ^ r % 2 ^ 64 + x.toNat / 2 ^ (64 - r) ∧
    ∀ i < 64, (rotl64 x r).getLsbD ((i + r) % 64) = x.getLsbD i

/-- R125: the key schedule of W words has W + 1 words: the key words, and C240 xor all of them; a zero key gives C240, the
key (C240, 0, …, 0) gives 0, and W equal words cancel. -/
def Obligations.KeyScheduleAppendsTheParityWord : Prop :=
  ∀ (n : Variant) (k : List Word), k.length = n.words →
    (keySchedule k).length = n.words + 1 ∧
    (∀ i < n.words, (keySchedule k).getD i 0 = k.getD i 0) ∧
    (keySchedule k).getD n.words 0 = k.foldr (· ^^^ ·) 0x1BD11BDAA9FC1A22 ∧
    (∀ x : Word, (keySchedule (List.replicate n.words x)).getD n.words 0 = 0x1BD11BDAA9FC1A22) ∧
    (keySchedule (0x1BD11BDAA9FC1A22 :: List.replicate (n.words - 1) 0)).getD n.words 0 = 0

/-- R126: the tweak schedule is T0, T1 and T0 xor T1; equal words give 0. -/
def Obligations.TweakScheduleHasThreeWords : Prop :=
  (∀ t0 t1 : Word, tweakSchedule t0 t1 = [t0, t1, t0 ^^^ t1]) ∧
  (∀ t : Word, (tweakSchedule t t).getD 2 1 = 0) ∧
  (tweakSchedule 0x0706050403020100 0x0F0E0D0C0B0A0908).getD 2 0 = 0x0808080808080808

/-- R136: injection s as D0 writes it: X[i] += ks[(s + i) mod (W + 1)] for every i, then X[W-3] += ts[s mod 3],
X[W-2] += ts[(s + 1) mod 3], X[W-1] += s. -/
def Obligations.InjectionAddsKeyTweakAndCounter : Prop :=
  ∀ (n : Variant) (ks ts x : List Word) (s : Nat), x.length = n.words →
    (inject n ks ts s x).length = n.words ∧
    ∀ i < n.words, (inject n ks ts s x).getD i 0 =
      x.getD i 0 + ks.getD ((s + i) % (n.words + 1)) 0 +
        (if i = n.words - 3 then ts.getD (s % 3) 0
        else if i = n.words - 2 then ts.getD ((s + 1) % 3) 0
        else if i = n.words - 1 then BitVec.ofNat 64 s
        else 0)

/-- R137, R138: in the MIX layer of round d the neighbours (X[2j], X[2j+1]) become a' = X[2j] + X[2j+1] and
b' = rotl64(X[2j+1], ROT_W[d mod 8][j]) xor a'. -/
def Obligations.MixLayerMixesNeighbourPairs : Prop :=
  ∀ (n : Variant) (d : Nat) (x : List Word), x.length = n.words →
    (mixLayer (n.rotationRow d) x).length = n.words ∧
    ∀ j < n.words / 2,
      (mixLayer (n.rotationRow d) x).getD (2 * j) 0 = x.getD (2 * j) 0 + x.getD (2 * j + 1) 0 ∧
      (mixLayer (n.rotationRow d) x).getD (2 * j + 1) 0 =
        rotl64 (x.getD (2 * j + 1) 0) ((n.rotations.getD (d % 8) []).getD j 0) ^^^
          (x.getD (2 * j) 0 + x.getD (2 * j + 1) 0)

/-- R139: slot i is reassigned from slot PI_W(i), after the MIX layer of every round; PI_4 applied twice is the identity,
PI_8 and PI_16 applied four times. -/
def Obligations.PermutationReassignsEachSlot : Prop :=
  (∀ (n : Variant) (y : List Word), y.length = n.words →
    (permute n y).length = n.words ∧
    (∀ i < n.words, (permute n y).getD i 0 = y.getD (n.pi.getD i 0) 0) ∧
    permute n (permute n (permute n (permute n y))) = y) ∧
  (∀ (n : Variant) (d : Nat) (x : List Word), Machine.round n d x = permute n (mixLayer (n.rotationRow d) x)) ∧
  (∀ y : List Word, y.length = 4 → permute .n256 (permute .n256 y) = y) ∧
  permute .n512 [0, 1, 2, 3, 4, 5, 6, 7] = [2, 1, 4, 7, 6, 5, 0, 3]

/-- The permutation is a bijection on blocks for every key and tweak, and Decrypt_W is its inverse (R145, whose inverse the
spec marks as derived from R136 to R141). -/
def Obligations.DecryptionInvertsEncryption : Prop :=
  ∀ (n : Variant) (ks ts b : List Word), b.length = n.words →
    decrypt n ks ts (encrypt n ks ts b) = b ∧ encrypt n ks ts (decrypt n ks ts b) = b

/-- The in-place form, which never moves a word, computes the same ciphertext; its pairs in round d are those of the printed
table in row d mod 4 (R143, R166, both marked as derived by the spec). -/
def Obligations.InPlaceFormComputesTheSameCipher : Prop :=
  (∀ (n : Variant) (ks ts b : List Word), b.length = n.words →
    encryptInPlace n ks ts b = encrypt n ks ts b) ∧
  (∀ (n : Variant) (d : Nat), slotOrder n d = (pairTable n).getD (d % 4) [])

/-! ### The whole machine (`10_state.md`, `60_exceptions.md`) -/

/-- Every step keeps the invariant: BM_BYTES in its range, block memory in its form and inside BM_BYTES, STATUS
consistent. -/
def Obligations.EveryStepKeepsTheInvariant : Prop :=
  ∀ s t : State, s.Inv → step s = .next t → t.Inv

/-- The state right after reset meets the invariant. -/
def Obligations.ResetMeetsTheInvariant : Prop := State.reset.Inv

/-- What writes each piece of state (the "written by" column of R21): H changes only by LDH, PROC and RST; T only by LDT,
PROC and RST; NSEL only by SETN and RST; a byte of BM only by WRB, WRW and STH; STATUS only by a command that answers
ERR = 1 and by RST; nothing changes BM_BYTES. -/
def Obligations.OnlyTheirCommandsWriteEachState : Prop :=
  ∀ (s t : State) (w : Command) (rest : List HostInput), s.Presents w rest → step s = .next t →
    (t.h ≠ s.h → opField w = 0x09 ∨ opField w = 0x20 ∨ opField w = 0x01) ∧
    (t.t0 ≠ s.t0 ∨ t.t1 ≠ s.t1 → opField w = 0x0A ∨ opField w = 0x20 ∨ opField w = 0x01) ∧
    (t.nsel ≠ s.nsel → opField w = 0x08 ∨ opField w = 0x01) ∧
    ((∃ a, t.readByte a ≠ s.readByte a) → opField w = 0x10 ∨ opField w = 0x11 ∨ opField w = 0x14) ∧
    (t.fault ≠ s.fault ∨ t.cause ≠ s.cause ∨ t.fop ≠ s.fop →
      (s.fault = false ∧ t.fault = true ∧ t.responses = { err := true, data := 0 } :: s.responses) ∨
        w = mkCommand 0x01 0 0 0) ∧
    t.config = s.config ∧ t.bmEpoch = s.bmEpoch

/-- R23: LDH and RDH of an index from W to 15 raise BAD_INDEX; SETN changes only CFG.NSEL; a word hidden by a smaller
variant is there again under a larger one. -/
def Obligations.HiddenChainingWordsAreKept : Prop :=
  (∀ (s : State) (i : Nat), s.Healthy → s.nsel.words ≤ i → i ≤ 15 →
    (∀ v, exec (.ldh i v) s = .next (s.raise .badIndex 0x09)) ∧
    exec (.rdh i) s = .next (s.raise .badIndex 0x0B)) ∧
  (∀ (s t : State) (c : Nat), s.Healthy → c < 3 → exec (.setn c) s = .next t →
    t = { s with nsel := t.nsel, responses := t.responses }) ∧
  (∀ (s : State) (v : Word), s.Healthy →
    ∃ t, runCommands [.setn 2, .ldh 15 v, .setn 0, .setn 2, .rdh 15] s = .next t ∧
      t.responses = { err := false, data := v } :: (List.replicate 4 { err := false, data := 0 } ++ s.responses))

/-- The words above W are not reachable (R22): of two engines that differ only in them, a step gives the same response and
the same next state but for the same words. -/
def Obligations.HiddenChainingWordsDoNotLeak : Prop :=
  ∀ s s' t t' : State, s' = { s with h := s'.h } → (∀ i < s.nsel.words, s'.readH i = s.readH i) →
    step s = .next t → step s' = .next t' →
    t' = { t with h := t'.h } ∧ ∀ i < s.nsel.words, t'.readH i = t.readH i

/-- R217: in a healthy engine a word faults exactly when one of the ordered tests fires, with the cause of the first that
does, FOP its opcode byte, ERR = 1, and nothing else changed (otherwise it is carried out with ERR = 0); before them all,
while a fault is pending every word but RDST and RST is refused and no cause recorded. -/
def Obligations.FirstFiringTestDecidesTheCause : Prop :=
  (∀ (s : State) (w : Command) (rest : List HostInput), s.Presents w rest → s.Healthy →
    ∃ t, step s = .next t ∧
      match firstCause s w with
      | some c => t = { s with
          pending := rest, fault := true, cause := c, fop := opField w,
          responses := { err := true, data := 0 } :: s.responses }
      | none => t.fault = false ∧ ∃ v, t.responses = { err := false, data := v } :: s.responses) ∧
  (∀ (s : State) (w : Command) (rest : List HostInput), s.Presents w rest → s.fault = true →
    w ≠ mkCommand 0x02 0 0 0 → w ≠ mkCommand 0x01 0 0 0 →
    step s = .next { s with pending := rest, responses := { err := true, data := 0 } :: s.responses })

/-- R218: raising a fault writes FAULT, CAUSE and FOP, answers ERR = 1 and DATA = 0, makes `fault_o` 1, and leaves H, T,
CFG and BM as they were. -/
def Obligations.RaisingAFaultWritesStatusOnly : Prop :=
  ∀ (s : State) (c : Cause) (o : BitVec 8),
    s.raise c o = { s with
      fault := true, cause := c, fop := o, responses := { err := true, data := 0 } :: s.responses } ∧
    (s.raise c o).faultO = true ∧ ∀ a, (s.raise c o).readByte a = s.readByte a

/-- R220: only a well-formed RST or hardware reset clears STATUS.FAULT, and both also clear H and T. -/
def Obligations.FaultStaysUntilReset : Prop :=
  ∀ s t : State, s.fault = true → step s = .next t → t.fault = false →
    (∃ rest, s.Presents (mkCommand 0x01 0 0 0) rest ∨ s.pending = .hardwareReset :: rest) ∧
      (∀ i, t.readH i = 0) ∧ t.t0 = 0 ∧ t.t1 = 0

/-- The layout of STATUS (R27) and `fault_o` (R32): each field at its bits, the reserved bits 0, `fault_o` equal to bit 0. -/
def Obligations.StatusFieldsHaveTheirBits : Prop :=
  ∀ s : State,
    s.status.getLsbD 0 = s.fault ∧ s.faultO = s.fault ∧ s.status.extractLsb' 1 3 = 0 ∧
    s.status.extractLsb' 4 4 = s.cause.code ∧ s.status.extractLsb' 8 2 = s.nsel.code ∧
    s.status.extractLsb' 10 6 = 0 ∧ s.status.extractLsb' 16 8 = s.fop ∧ s.status.extractLsb' 24 40 = 0

/-- A run of commands that starts with a fault pending and has no RST among them never completes: it ends in a state with
FAULT = 1, which is never final (R220). -/
def Obligations.FaultedRunsWithoutRstNeverComplete : Prop :=
  ∀ (is : List Instr) (s : State), s.fault = true → .rst ∉ is →
    completes is s = none ∧ ∃ t, runCommands is s = .next t ∧ t.fault = true ∧ t.cause = s.cause ∧ t.fop = s.fop
end

