-- ==== Sys2Proof/Laws/Assembler.lean ====
section
/-! SUPPORT. The commands of the pseudo-instructions that load and store several words (R81). -/

namespace Sys2Proof.Machine

/-- Words are addressable exactly when each starts at a 16-bit address. -/
theorem wordsAddressable_iff {a k : Nat} : wordsAddressable a k ↔ ∀ j < k, a + 8 * j < 65536 := by
  constructor
  · rintro (rfl | h) j hj <;> omega
  · intro h
    by_cases hk : k = 0
    · exact .inl hk
    · exact .inr (h (k - 1) (by omega))

@[simp] theorem loadFrom_length (i : Nat) (vs : List Word) : (loadFrom i vs).length = vs.length := by
  induction vs generalizing i with
  | nil => rfl
  | cons v vs ih => simp [loadFrom, ih]

theorem loadFrom_getElem? (i : Nat) (vs : List Word) {k : Nat} (h : k < vs.length) :
    (loadFrom i vs)[k]? = some (.ldh (i + k) (vs.getD k 0)) := by
  induction vs generalizing i k with
  | nil => simp at h
  | cons v vs ih =>
    cases k with
    | zero => simp [loadFrom]
    | succ k => simpa [loadFrom, show i + 1 + k = i + (k + 1) by omega] using ih (i + 1) (k := k) (by simpa using h)

@[simp] theorem storeFrom_length (a : Nat) (ws : List Word) : (storeFrom a ws).length = ws.length := by
  induction ws generalizing a with
  | nil => rfl
  | cons w ws ih => simp [storeFrom, ih]

theorem storeFrom_getElem? (a : Nat) (ws : List Word) {k : Nat} (h : k < ws.length) :
    (storeFrom a ws)[k]? = some (.wrw (BitVec.ofNat 16 (a + 8 * k)) (ws.getD k 0)) := by
  induction ws generalizing a k with
  | nil => simp at h
  | cons w ws ih =>
    cases k with
    | zero => simp [storeFrom]
    | succ k =>
      simpa [storeFrom, show a + 8 + 8 * k = a + 8 * (k + 1) by omega] using ih (a + 8) (k := k) (by simpa using h)

end Sys2Proof.Machine
end

