-- ==== Sys2Proof/Laws/Decode.lean ====
section
/-! SUPPORT. The decoder and the encoder: the fields of a word built from fields, what each format reserves, and what
the decoder does with a word of a given opcode. -/

namespace Sys2Proof

/-! ### Fields of a built word -/

theorem mkCommand_toNat (op idx : BitVec 8) (addr : Addr) (data : Word) :
    (mkCommand op idx addr data).toNat =
      ((op.toNat * 2 ^ 8 + idx.toNat) * 2 ^ 16 + addr.toNat) * 2 ^ 64 + data.toNat := by
  have h1 := idx.isLt
  have h2 := addr.isLt
  have h3 := data.isLt
  simp only [mkCommand, BitVec.toNat_append]
  rw [← Nat.shiftLeft_add_eq_or_of_lt h3, ← Nat.shiftLeft_add_eq_or_of_lt h2, ← Nat.shiftLeft_add_eq_or_of_lt h1]
  simp only [Nat.shiftLeft_eq]

@[simp] theorem opField_mkCommand (op idx : BitVec 8) (addr : Addr) (data : Word) :
    opField (mkCommand op idx addr data) = op := by
  apply BitVec.eq_of_toNat_eq
  have h0 := op.isLt
  have h1 := idx.isLt
  have h2 := addr.isLt
  have h3 := data.isLt
  rw [opField, BitVec.extractLsb'_toNat, mkCommand_toNat, Nat.shiftRight_eq_div_pow]
  omega

@[simp] theorem idxField_mkCommand (op idx : BitVec 8) (addr : Addr) (data : Word) :
    idxField (mkCommand op idx addr data) = idx := by
  apply BitVec.eq_of_toNat_eq
  have h1 := idx.isLt
  have h2 := addr.isLt
  have h3 := data.isLt
  rw [idxField, BitVec.extractLsb'_toNat, mkCommand_toNat, Nat.shiftRight_eq_div_pow]
  omega

@[simp] theorem addrField_mkCommand (op idx : BitVec 8) (addr : Addr) (data : Word) :
    addrField (mkCommand op idx addr data) = addr := by
  apply BitVec.eq_of_toNat_eq
  have h2 := addr.isLt
  have h3 := data.isLt
  rw [addrField, BitVec.extractLsb'_toNat, mkCommand_toNat, Nat.shiftRight_eq_div_pow]
  omega

@[simp] theorem dataField_mkCommand (op idx : BitVec 8) (addr : Addr) (data : Word) :
    dataField (mkCommand op idx addr data) = data := by
  apply BitVec.eq_of_toNat_eq
  have h3 := data.isLt
  rw [dataField, BitVec.extractLsb'_toNat, mkCommand_toNat, Nat.shiftRight_eq_div_pow]
  omega

/-- A word is its four fields (R70). -/
theorem mkCommand_fields (w : Command) : mkCommand (opField w) (idxField w) (addrField w) (dataField w) = w := by
  apply BitVec.eq_of_toNat_eq
  have := w.isLt
  simp only [mkCommand_toNat, opField, idxField, addrField, dataField, BitVec.extractLsb'_toNat,
    Nat.shiftRight_eq_div_pow]
  omega

@[simp] theorem opField_encode (i : Instr) : opField (encode i) = i.opcode.byte := opField_mkCommand _ _ _ _

@[simp] theorem idxField_encode (i : Instr) : idxField (encode i) = i.idxBits := idxField_mkCommand _ _ _ _

@[simp] theorem addrField_encode (i : Instr) : addrField (encode i) = i.addrBits := addrField_mkCommand _ _ _ _

@[simp] theorem dataField_encode (i : Instr) : dataField (encode i) = i.dataBits := dataField_mkCommand _ _ _ _

theorem mkCommand_inj {op op' idx idx' : BitVec 8} {addr addr' : Addr} {data data' : Word} :
    mkCommand op idx addr data = mkCommand op' idx' addr' data' ↔
      op = op' ∧ idx = idx' ∧ addr = addr' ∧ data = data' := by
  constructor
  · intro h
    refine ⟨?_, ?_, ?_, ?_⟩
    · simpa using congrArg opField h
    · simpa using congrArg idxField h
    · simpa using congrArg addrField h
    · simpa using congrArg dataField h
  · rintro ⟨rfl, rfl, rfl, rfl⟩
    rfl

theorem mkCommand_and (op op' idx idx' : BitVec 8) (addr addr' : Addr) (data data' : Word) :
    mkCommand op idx addr data &&& mkCommand op' idx' addr' data' =
      mkCommand (op &&& op') (idx &&& idx') (addr &&& addr') (data &&& data') := by
  have h : (op ++ idx ++ addr ++ data) &&& (op' ++ idx' ++ addr' ++ data') =
      (op &&& op') ++ (idx &&& idx') ++ (addr &&& addr') ++ (data &&& data') := by
    rw [BitVec.and_append, BitVec.and_append, BitVec.and_append]
  exact h

/-- Every word is built from fields: take a word apart with this. -/
theorem exists_mkCommand (w : Command) :
    ∃ op idx addr data, w = mkCommand op idx addr data :=
  ⟨_, _, _, _, (mkCommand_fields w).symm⟩

/-! ### Opcodes -/

@[simp] theorem Opcode.ofByte_byte (o : Opcode) : Opcode.ofByte o.byte = some o := by cases o <;> decide

theorem Opcode.ofByte_eq_some {b : BitVec 8} {o : Opcode} : Opcode.ofByte b = some o ↔ b = o.byte := by
  constructor
  · intro h
    have := List.find?_some h
    simpa using (beq_iff_eq.mp this).symm
  · rintro rfl
    exact Opcode.ofByte_byte o

theorem Opcode.byte_injective {o p : Opcode} (h : o.byte = p.byte) : o = p := by
  have := Opcode.ofByte_byte o
  rw [h, Opcode.ofByte_byte] at this
  exact (Option.some.inj this).symm

/-! ### What the decoder does -/

/-- A word whose `op` is that of `o`. -/
theorem decode_of_op {w : Command} {o : Opcode} (h : opField w = o.byte) :
    decode w = if w &&& o.format.reserved = 0 then .ok (readOperands o w) else .error (.reservedBits o) := by
  simp only [decode, h, Opcode.ofByte_byte]

/-- A word whose `op` is reserved. -/
theorem decode_of_reserved_op {w : Command} (h : Opcode.ofByte (opField w) = none) :
    decode w = .error (.reservedOpcode (opField w)) := by
  simp only [decode, h]

/-- What a decoded word says: its `op`, no reserved bit, and the operands read from it. -/
theorem decode_eq_ok {w : Command} {i : Instr} :
    decode w = .ok i ↔
      ∃ o, opField w = o.byte ∧ w &&& o.format.reserved = 0 ∧ readOperands o w = i := by
  cases ho : Opcode.ofByte (opField w) with
  | none =>
    rw [decode_of_reserved_op ho]
    constructor
    · intro h; cases h
    · rintro ⟨o, h, -⟩
      rw [Opcode.ofByte_eq_some.mpr h] at ho
      cases ho
  | some o =>
    have hop := Opcode.ofByte_eq_some.mp ho
    rw [decode_of_op hop]
    constructor
    · intro h
      split at h
      · exact ⟨o, hop, ‹_›, Except.ok.inj h⟩
      · cases h
    · rintro ⟨p, hp, hr, rfl⟩
      obtain rfl := Opcode.byte_injective (hop.symm.trans hp)
      rw [if_pos hr]

theorem readOperands_opcode (o : Opcode) (w : Command) : (readOperands o w).opcode = o := by cases o <;> rfl

/-- The operands read from a word always fit their fields. -/
theorem readOperands_wellFormed (o : Opcode) (w : Command) : (readOperands o w).WellFormed := by
  cases o <;> simp only [readOperands, Instr.WellFormed, Instr.wellFormed, decide_eq_true_eq]
  all_goals exact BitVec.isLt _

/-- A decoded word is a command. -/
theorem decode_wellFormed {w : Command} {i : Instr} (h : decode w = .ok i) : i.WellFormed := by
  obtain ⟨o, -, -, rfl⟩ := decode_eq_ok.mp h
  exact readOperands_wellFormed o w

/-! ### What each format reserves, field by field -/

theorem reserved_clear_iff (w : Command) (f : Format) :
    w &&& f.reserved = 0 ↔
      idxField w &&& idxField f.reserved = 0 ∧ addrField w &&& addrField f.reserved = 0 ∧
        dataField w &&& dataField f.reserved = 0 := by
  obtain ⟨op, idx, addr, data, rfl⟩ := exists_mkCommand w
  have hop : opField f.reserved = 0 := by cases f <;> decide
  rw [← mkCommand_fields f.reserved, mkCommand_and, hop]
  have zero : (0 : Command) = mkCommand 0 0 0 0 := by decide
  rw [zero, mkCommand_inj]
  simp

/-- A value has no bit of a mask of its high bits exactly when it fits below them. -/
theorem and_high_eq_zero_iff {n k : Nat} {m : BitVec n} (h0 : ∀ j < k, m.getLsbD j = false)
    (h1 : ∀ j < n, k ≤ j → m.getLsbD j = true) (x : BitVec n) : x &&& m = 0 ↔ x.toNat < 2 ^ k := by
  constructor
  · intro h
    apply Nat.lt_pow_two_of_testBit
    intro j hj
    by_cases hn : j < n
    · have := congrArg (fun y => BitVec.getLsbD y j) h
      simp only [BitVec.getLsbD_and, h1 j hn hj, Bool.and_true] at this
      exact this.trans BitVec.getLsbD_zero
    · exact Nat.testBit_lt_two_pow (x.isLt.trans_le (Nat.pow_le_pow_right (by decide) (by omega)))
  · intro h
    apply BitVec.eq_of_getLsbD_eq
    intro j hj
    by_cases hjk : j < k
    · simp [h0 j hjk]
    · have hx : x.getLsbD j = false :=
        Nat.testBit_lt_two_pow (h.trans_le (Nat.pow_le_pow_right (by decide) (by omega)))
      simp [hx]

theorem reserved_z_iff (w : Command) :
    w &&& Format.z.reserved = 0 ↔ idxField w = 0 ∧ addrField w = 0 ∧ dataField w = 0 := by
  rw [reserved_clear_iff]
  simp only [Format.reserved, idxField_mkCommand, addrField_mkCommand, dataField_mkCommand]
  rw [and_high_eq_zero_iff (k := 0), and_high_eq_zero_iff (k := 0), and_high_eq_zero_iff (k := 0)] <;>
    first | decide | simp [BitVec.toNat_eq]

theorem reserved_v_iff (w : Command) :
    w &&& Format.v.reserved = 0 ↔ (idxField w).toNat < 4 ∧ addrField w = 0 ∧ dataField w = 0 := by
  rw [reserved_clear_iff]
  simp only [Format.reserved, idxField_mkCommand, addrField_mkCommand, dataField_mkCommand]
  rw [and_high_eq_zero_iff (k := 2), and_high_eq_zero_iff (k := 0), and_high_eq_zero_iff (k := 0)] <;>
    first | decide | simp [BitVec.toNat_eq]

theorem reserved_hw_iff (w : Command) :
    w &&& Format.hw.reserved = 0 ↔ (idxField w).toNat < 16 ∧ addrField w = 0 := by
  rw [reserved_clear_iff]
  simp only [Format.reserved, idxField_mkCommand, addrField_mkCommand, dataField_mkCommand]
  rw [show dataField w &&& (0 : Word) = 0 from BitVec.and_zero]
  simp only [and_true]
  rw [and_high_eq_zero_iff (k := 4), and_high_eq_zero_iff (k := 0)] <;>
    first | decide | simp [BitVec.toNat_eq]

theorem reserved_hr_iff (w : Command) :
    w &&& Format.hr.reserved = 0 ↔ (idxField w).toNat < 16 ∧ addrField w = 0 ∧ dataField w = 0 := by
  rw [reserved_clear_iff]
  simp only [Format.reserved, idxField_mkCommand, addrField_mkCommand, dataField_mkCommand]
  rw [and_high_eq_zero_iff (k := 4), and_high_eq_zero_iff (k := 0), and_high_eq_zero_iff (k := 0)] <;>
    first | decide | simp [BitVec.toNat_eq]

theorem reserved_tw_iff (w : Command) :
    w &&& Format.tw.reserved = 0 ↔ (idxField w).toNat < 2 ∧ addrField w = 0 := by
  rw [reserved_clear_iff]
  simp only [Format.reserved, idxField_mkCommand, addrField_mkCommand, dataField_mkCommand]
  rw [show dataField w &&& (0 : Word) = 0 from BitVec.and_zero]
  simp only [and_true]
  rw [and_high_eq_zero_iff (k := 1), and_high_eq_zero_iff (k := 0)] <;>
    first | decide | simp [BitVec.toNat_eq]

theorem reserved_tr_iff (w : Command) :
    w &&& Format.tr.reserved = 0 ↔ (idxField w).toNat < 2 ∧ addrField w = 0 ∧ dataField w = 0 := by
  rw [reserved_clear_iff]
  simp only [Format.reserved, idxField_mkCommand, addrField_mkCommand, dataField_mkCommand]
  rw [and_high_eq_zero_iff (k := 1), and_high_eq_zero_iff (k := 0), and_high_eq_zero_iff (k := 0)] <;>
    first | decide | simp [BitVec.toNat_eq]

theorem reserved_mb_iff (w : Command) :
    w &&& Format.mb.reserved = 0 ↔ idxField w = 0 ∧ (dataField w).toNat < 256 := by
  rw [reserved_clear_iff]
  simp only [Format.reserved, idxField_mkCommand, addrField_mkCommand, dataField_mkCommand]
  rw [show addrField w &&& (0 : Addr) = 0 from BitVec.and_zero]
  simp only [true_and]
  rw [and_high_eq_zero_iff (k := 0), and_high_eq_zero_iff (k := 8)] <;>
    first | decide | simp [BitVec.toNat_eq]

theorem reserved_mw_iff (w : Command) : w &&& Format.mw.reserved = 0 ↔ idxField w = 0 := by
  rw [reserved_clear_iff]
  simp only [Format.reserved, idxField_mkCommand, addrField_mkCommand, dataField_mkCommand]
  rw [show addrField w &&& (0 : Addr) = 0 from BitVec.and_zero]
  rw [show dataField w &&& (0 : Word) = 0 from BitVec.and_zero]
  simp only [and_true]
  rw [and_high_eq_zero_iff (k := 0)] <;> first | decide | simp [BitVec.toNat_eq]

theorem reserved_mr_iff (w : Command) :
    w &&& Format.mr.reserved = 0 ↔ idxField w = 0 ∧ dataField w = 0 := by
  rw [reserved_clear_iff]
  simp only [Format.reserved, idxField_mkCommand, addrField_mkCommand, dataField_mkCommand]
  rw [show addrField w &&& (0 : Addr) = 0 from BitVec.and_zero]
  simp only [true_and]
  rw [and_high_eq_zero_iff (k := 0), and_high_eq_zero_iff (k := 0)] <;>
    first | decide | simp [BitVec.toNat_eq]

theorem reserved_p_iff (w : Command) : w &&& Format.p.reserved = 0 ↔ (dataField w).toNat < 65536 := by
  rw [reserved_clear_iff]
  simp only [Format.reserved, idxField_mkCommand, addrField_mkCommand, dataField_mkCommand]
  rw [show idxField w &&& (0 : BitVec 8) = 0 from BitVec.and_zero]
  rw [show addrField w &&& (0 : Addr) = 0 from BitVec.and_zero]
  simp only [true_and]
  rw [and_high_eq_zero_iff (k := 16)] <;> first | decide | simp

end Sys2Proof
end

