-- ==== Sys2Proof/Laws/State.lean ====
section
/-! SUPPORT. One lemma per field per update of the state, true by rfl, so that no later proof unfolds a record update;
for the updates that are loops, the same by induction. -/

namespace Sys2Proof.Machine

/-! ### `consume` -/

@[simp] theorem State.consume_h (s : State) (rest : List HostInput) : (s.consume rest).h = s.h := rfl
@[simp] theorem State.consume_t0 (s : State) (rest : List HostInput) : (s.consume rest).t0 = s.t0 := rfl
@[simp] theorem State.consume_t1 (s : State) (rest : List HostInput) : (s.consume rest).t1 = s.t1 := rfl
@[simp] theorem State.consume_nsel (s : State) (rest : List HostInput) : (s.consume rest).nsel = s.nsel := rfl
@[simp] theorem State.consume_fault (s : State) (rest : List HostInput) : (s.consume rest).fault = s.fault := rfl
@[simp] theorem State.consume_cause (s : State) (rest : List HostInput) : (s.consume rest).cause = s.cause := rfl
@[simp] theorem State.consume_fop (s : State) (rest : List HostInput) : (s.consume rest).fop = s.fop := rfl
@[simp] theorem State.consume_bm (s : State) (rest : List HostInput) : (s.consume rest).bm = s.bm := rfl
@[simp] theorem State.consume_bmEpoch (s : State) (rest : List HostInput) : (s.consume rest).bmEpoch = s.bmEpoch := rfl
@[simp] theorem State.consume_config (s : State) (rest : List HostInput) : (s.consume rest).config = s.config := rfl
@[simp] theorem State.consume_pending (s : State) (rest : List HostInput) : (s.consume rest).pending = rest := rfl
@[simp] theorem State.consume_responses (s : State) (rest : List HostInput) : (s.consume rest).responses = s.responses := rfl

/-! ### `respond` -/

@[simp] theorem State.respond_h (s : State) (e : Bool) (v : Word) : (s.respond e v).h = s.h := rfl
@[simp] theorem State.respond_t0 (s : State) (e : Bool) (v : Word) : (s.respond e v).t0 = s.t0 := rfl
@[simp] theorem State.respond_t1 (s : State) (e : Bool) (v : Word) : (s.respond e v).t1 = s.t1 := rfl
@[simp] theorem State.respond_nsel (s : State) (e : Bool) (v : Word) : (s.respond e v).nsel = s.nsel := rfl
@[simp] theorem State.respond_fault (s : State) (e : Bool) (v : Word) : (s.respond e v).fault = s.fault := rfl
@[simp] theorem State.respond_cause (s : State) (e : Bool) (v : Word) : (s.respond e v).cause = s.cause := rfl
@[simp] theorem State.respond_fop (s : State) (e : Bool) (v : Word) : (s.respond e v).fop = s.fop := rfl
@[simp] theorem State.respond_bm (s : State) (e : Bool) (v : Word) : (s.respond e v).bm = s.bm := rfl
@[simp] theorem State.respond_bmEpoch (s : State) (e : Bool) (v : Word) : (s.respond e v).bmEpoch = s.bmEpoch := rfl
@[simp] theorem State.respond_config (s : State) (e : Bool) (v : Word) : (s.respond e v).config = s.config := rfl
@[simp] theorem State.respond_pending (s : State) (e : Bool) (v : Word) : (s.respond e v).pending = s.pending := rfl
@[simp] theorem State.respond_responses (s : State) (e : Bool) (v : Word) : (s.respond e v).responses = { err := e, data := v } :: s.responses := rfl

/-! ### `answer` -/

@[simp] theorem State.answer_h (s : State) (v : Word) : (s.answer v).h = s.h := rfl
@[simp] theorem State.answer_t0 (s : State) (v : Word) : (s.answer v).t0 = s.t0 := rfl
@[simp] theorem State.answer_t1 (s : State) (v : Word) : (s.answer v).t1 = s.t1 := rfl
@[simp] theorem State.answer_nsel (s : State) (v : Word) : (s.answer v).nsel = s.nsel := rfl
@[simp] theorem State.answer_fault (s : State) (v : Word) : (s.answer v).fault = s.fault := rfl
@[simp] theorem State.answer_cause (s : State) (v : Word) : (s.answer v).cause = s.cause := rfl
@[simp] theorem State.answer_fop (s : State) (v : Word) : (s.answer v).fop = s.fop := rfl
@[simp] theorem State.answer_bm (s : State) (v : Word) : (s.answer v).bm = s.bm := rfl
@[simp] theorem State.answer_bmEpoch (s : State) (v : Word) : (s.answer v).bmEpoch = s.bmEpoch := rfl
@[simp] theorem State.answer_config (s : State) (v : Word) : (s.answer v).config = s.config := rfl
@[simp] theorem State.answer_pending (s : State) (v : Word) : (s.answer v).pending = s.pending := rfl
@[simp] theorem State.answer_responses (s : State) (v : Word) : (s.answer v).responses = { err := false, data := v } :: s.responses := rfl

/-! ### `raise` -/

@[simp] theorem State.raise_h (s : State) (c : Cause) (o : BitVec 8) : (s.raise c o).h = s.h := rfl
@[simp] theorem State.raise_t0 (s : State) (c : Cause) (o : BitVec 8) : (s.raise c o).t0 = s.t0 := rfl
@[simp] theorem State.raise_t1 (s : State) (c : Cause) (o : BitVec 8) : (s.raise c o).t1 = s.t1 := rfl
@[simp] theorem State.raise_nsel (s : State) (c : Cause) (o : BitVec 8) : (s.raise c o).nsel = s.nsel := rfl
@[simp] theorem State.raise_fault (s : State) (c : Cause) (o : BitVec 8) : (s.raise c o).fault = true := rfl
@[simp] theorem State.raise_cause (s : State) (c : Cause) (o : BitVec 8) : (s.raise c o).cause = c := rfl
@[simp] theorem State.raise_fop (s : State) (c : Cause) (o : BitVec 8) : (s.raise c o).fop = o := rfl
@[simp] theorem State.raise_bm (s : State) (c : Cause) (o : BitVec 8) : (s.raise c o).bm = s.bm := rfl
@[simp] theorem State.raise_bmEpoch (s : State) (c : Cause) (o : BitVec 8) : (s.raise c o).bmEpoch = s.bmEpoch := rfl
@[simp] theorem State.raise_config (s : State) (c : Cause) (o : BitVec 8) : (s.raise c o).config = s.config := rfl
@[simp] theorem State.raise_pending (s : State) (c : Cause) (o : BitVec 8) : (s.raise c o).pending = s.pending := rfl
@[simp] theorem State.raise_responses (s : State) (c : Cause) (o : BitVec 8) : (s.raise c o).responses = { err := true, data := 0 } :: s.responses := rfl

/-! ### `refuse` -/

@[simp] theorem State.refuse_h (s : State) : (s.refuse).h = s.h := rfl
@[simp] theorem State.refuse_t0 (s : State) : (s.refuse).t0 = s.t0 := rfl
@[simp] theorem State.refuse_t1 (s : State) : (s.refuse).t1 = s.t1 := rfl
@[simp] theorem State.refuse_nsel (s : State) : (s.refuse).nsel = s.nsel := rfl
@[simp] theorem State.refuse_fault (s : State) : (s.refuse).fault = s.fault := rfl
@[simp] theorem State.refuse_cause (s : State) : (s.refuse).cause = s.cause := rfl
@[simp] theorem State.refuse_fop (s : State) : (s.refuse).fop = s.fop := rfl
@[simp] theorem State.refuse_bm (s : State) : (s.refuse).bm = s.bm := rfl
@[simp] theorem State.refuse_bmEpoch (s : State) : (s.refuse).bmEpoch = s.bmEpoch := rfl
@[simp] theorem State.refuse_config (s : State) : (s.refuse).config = s.config := rfl
@[simp] theorem State.refuse_pending (s : State) : (s.refuse).pending = s.pending := rfl
@[simp] theorem State.refuse_responses (s : State) : (s.refuse).responses = { err := true, data := 0 } :: s.responses := rfl

/-! ### `clear` -/

@[simp] theorem State.clear_h (s : State) : (s.clear).h = Vector.replicate 16 0 := rfl
@[simp] theorem State.clear_t0 (s : State) : (s.clear).t0 = 0 := rfl
@[simp] theorem State.clear_t1 (s : State) : (s.clear).t1 = 0 := rfl
@[simp] theorem State.clear_nsel (s : State) : (s.clear).nsel = .n256 := rfl
@[simp] theorem State.clear_fault (s : State) : (s.clear).fault = false := rfl
@[simp] theorem State.clear_cause (s : State) : (s.clear).cause = .none := rfl
@[simp] theorem State.clear_fop (s : State) : (s.clear).fop = 0 := rfl
@[simp] theorem State.clear_bm (s : State) : (s.clear).bm = s.bm := rfl
@[simp] theorem State.clear_bmEpoch (s : State) : (s.clear).bmEpoch = s.bmEpoch := rfl
@[simp] theorem State.clear_config (s : State) : (s.clear).config = s.config := rfl
@[simp] theorem State.clear_pending (s : State) : (s.clear).pending = s.pending := rfl
@[simp] theorem State.clear_responses (s : State) : (s.clear).responses = s.responses := rfl

/-! ### `hardwareReset` -/

@[simp] theorem State.hardwareReset_h (s : State) : (s.hardwareReset).h = Vector.replicate 16 0 := rfl
@[simp] theorem State.hardwareReset_t0 (s : State) : (s.hardwareReset).t0 = 0 := rfl
@[simp] theorem State.hardwareReset_t1 (s : State) : (s.hardwareReset).t1 = 0 := rfl
@[simp] theorem State.hardwareReset_nsel (s : State) : (s.hardwareReset).nsel = .n256 := rfl
@[simp] theorem State.hardwareReset_fault (s : State) : (s.hardwareReset).fault = false := rfl
@[simp] theorem State.hardwareReset_cause (s : State) : (s.hardwareReset).cause = .none := rfl
@[simp] theorem State.hardwareReset_fop (s : State) : (s.hardwareReset).fop = 0 := rfl
@[simp] theorem State.hardwareReset_bm (s : State) : (s.hardwareReset).bm = [] := rfl
@[simp] theorem State.hardwareReset_bmEpoch (s : State) : (s.hardwareReset).bmEpoch = s.bmEpoch + 1 := rfl
@[simp] theorem State.hardwareReset_config (s : State) : (s.hardwareReset).config = s.config := rfl
@[simp] theorem State.hardwareReset_pending (s : State) : (s.hardwareReset).pending = s.pending := rfl
@[simp] theorem State.hardwareReset_responses (s : State) : (s.hardwareReset).responses = s.responses := rfl

/-! ### `setVariant` -/

@[simp] theorem State.setVariant_h (s : State) (n : Variant) : (s.setVariant n).h = s.h := rfl
@[simp] theorem State.setVariant_t0 (s : State) (n : Variant) : (s.setVariant n).t0 = s.t0 := rfl
@[simp] theorem State.setVariant_t1 (s : State) (n : Variant) : (s.setVariant n).t1 = s.t1 := rfl
@[simp] theorem State.setVariant_nsel (s : State) (n : Variant) : (s.setVariant n).nsel = n := rfl
@[simp] theorem State.setVariant_fault (s : State) (n : Variant) : (s.setVariant n).fault = s.fault := rfl
@[simp] theorem State.setVariant_cause (s : State) (n : Variant) : (s.setVariant n).cause = s.cause := rfl
@[simp] theorem State.setVariant_fop (s : State) (n : Variant) : (s.setVariant n).fop = s.fop := rfl
@[simp] theorem State.setVariant_bm (s : State) (n : Variant) : (s.setVariant n).bm = s.bm := rfl
@[simp] theorem State.setVariant_bmEpoch (s : State) (n : Variant) : (s.setVariant n).bmEpoch = s.bmEpoch := rfl
@[simp] theorem State.setVariant_config (s : State) (n : Variant) : (s.setVariant n).config = s.config := rfl
@[simp] theorem State.setVariant_pending (s : State) (n : Variant) : (s.setVariant n).pending = s.pending := rfl
@[simp] theorem State.setVariant_responses (s : State) (n : Variant) : (s.setVariant n).responses = s.responses := rfl

/-! ### `writeH` -/

@[simp] theorem State.writeH_h (s : State) (i : Nat) (v : Word) : (s.writeH i v).h = s.h.setIfInBounds i v := rfl
@[simp] theorem State.writeH_t0 (s : State) (i : Nat) (v : Word) : (s.writeH i v).t0 = s.t0 := rfl
@[simp] theorem State.writeH_t1 (s : State) (i : Nat) (v : Word) : (s.writeH i v).t1 = s.t1 := rfl
@[simp] theorem State.writeH_nsel (s : State) (i : Nat) (v : Word) : (s.writeH i v).nsel = s.nsel := rfl
@[simp] theorem State.writeH_fault (s : State) (i : Nat) (v : Word) : (s.writeH i v).fault = s.fault := rfl
@[simp] theorem State.writeH_cause (s : State) (i : Nat) (v : Word) : (s.writeH i v).cause = s.cause := rfl
@[simp] theorem State.writeH_fop (s : State) (i : Nat) (v : Word) : (s.writeH i v).fop = s.fop := rfl
@[simp] theorem State.writeH_bm (s : State) (i : Nat) (v : Word) : (s.writeH i v).bm = s.bm := rfl
@[simp] theorem State.writeH_bmEpoch (s : State) (i : Nat) (v : Word) : (s.writeH i v).bmEpoch = s.bmEpoch := rfl
@[simp] theorem State.writeH_config (s : State) (i : Nat) (v : Word) : (s.writeH i v).config = s.config := rfl
@[simp] theorem State.writeH_pending (s : State) (i : Nat) (v : Word) : (s.writeH i v).pending = s.pending := rfl
@[simp] theorem State.writeH_responses (s : State) (i : Nat) (v : Word) : (s.writeH i v).responses = s.responses := rfl

/-! ### `memWrite` -/

@[simp] theorem State.memWrite_h (s : State) (a n : Nat) (v : Word) : (s.memWrite a n v).h = s.h := rfl
@[simp] theorem State.memWrite_t0 (s : State) (a n : Nat) (v : Word) : (s.memWrite a n v).t0 = s.t0 := rfl
@[simp] theorem State.memWrite_t1 (s : State) (a n : Nat) (v : Word) : (s.memWrite a n v).t1 = s.t1 := rfl
@[simp] theorem State.memWrite_nsel (s : State) (a n : Nat) (v : Word) : (s.memWrite a n v).nsel = s.nsel := rfl
@[simp] theorem State.memWrite_fault (s : State) (a n : Nat) (v : Word) : (s.memWrite a n v).fault = s.fault := rfl
@[simp] theorem State.memWrite_cause (s : State) (a n : Nat) (v : Word) : (s.memWrite a n v).cause = s.cause := rfl
@[simp] theorem State.memWrite_fop (s : State) (a n : Nat) (v : Word) : (s.memWrite a n v).fop = s.fop := rfl
@[simp] theorem State.memWrite_bm (s : State) (a n : Nat) (v : Word) : (s.memWrite a n v).bm = s.bm.writeBytes a (leBytes n v) := rfl
@[simp] theorem State.memWrite_bmEpoch (s : State) (a n : Nat) (v : Word) : (s.memWrite a n v).bmEpoch = s.bmEpoch := rfl
@[simp] theorem State.memWrite_config (s : State) (a n : Nat) (v : Word) : (s.memWrite a n v).config = s.config := rfl
@[simp] theorem State.memWrite_pending (s : State) (a n : Nat) (v : Word) : (s.memWrite a n v).pending = s.pending := rfl
@[simp] theorem State.memWrite_responses (s : State) (a n : Nat) (v : Word) : (s.memWrite a n v).responses = s.responses := rfl

/-! ### `writeLiveH` -/

@[simp] theorem State.writeLiveH_h (s : State) (ws : List Word) : (s.writeLiveH ws).h = s.h.mapIdx fun i x => ws.getD i x := rfl
@[simp] theorem State.writeLiveH_t0 (s : State) (ws : List Word) : (s.writeLiveH ws).t0 = s.t0 := rfl
@[simp] theorem State.writeLiveH_t1 (s : State) (ws : List Word) : (s.writeLiveH ws).t1 = s.t1 := rfl
@[simp] theorem State.writeLiveH_nsel (s : State) (ws : List Word) : (s.writeLiveH ws).nsel = s.nsel := rfl
@[simp] theorem State.writeLiveH_fault (s : State) (ws : List Word) : (s.writeLiveH ws).fault = s.fault := rfl
@[simp] theorem State.writeLiveH_cause (s : State) (ws : List Word) : (s.writeLiveH ws).cause = s.cause := rfl
@[simp] theorem State.writeLiveH_fop (s : State) (ws : List Word) : (s.writeLiveH ws).fop = s.fop := rfl
@[simp] theorem State.writeLiveH_bm (s : State) (ws : List Word) : (s.writeLiveH ws).bm = s.bm := rfl
@[simp] theorem State.writeLiveH_bmEpoch (s : State) (ws : List Word) : (s.writeLiveH ws).bmEpoch = s.bmEpoch := rfl
@[simp] theorem State.writeLiveH_config (s : State) (ws : List Word) : (s.writeLiveH ws).config = s.config := rfl
@[simp] theorem State.writeLiveH_pending (s : State) (ws : List Word) : (s.writeLiveH ws).pending = s.pending := rfl
@[simp] theorem State.writeLiveH_responses (s : State) (ws : List Word) : (s.writeLiveH ws).responses = s.responses := rfl

/-! ### `advanceT0` -/

@[simp] theorem State.advanceT0_h (s : State) (add : Byte) : (s.advanceT0 add).h = s.h := rfl
@[simp] theorem State.advanceT0_t0 (s : State) (add : Byte) : (s.advanceT0 add).t0 = add64 s.t0 (add.zeroExtend 64) := rfl
@[simp] theorem State.advanceT0_t1 (s : State) (add : Byte) : (s.advanceT0 add).t1 = s.t1 := rfl
@[simp] theorem State.advanceT0_nsel (s : State) (add : Byte) : (s.advanceT0 add).nsel = s.nsel := rfl
@[simp] theorem State.advanceT0_fault (s : State) (add : Byte) : (s.advanceT0 add).fault = s.fault := rfl
@[simp] theorem State.advanceT0_cause (s : State) (add : Byte) : (s.advanceT0 add).cause = s.cause := rfl
@[simp] theorem State.advanceT0_fop (s : State) (add : Byte) : (s.advanceT0 add).fop = s.fop := rfl
@[simp] theorem State.advanceT0_bm (s : State) (add : Byte) : (s.advanceT0 add).bm = s.bm := rfl
@[simp] theorem State.advanceT0_bmEpoch (s : State) (add : Byte) : (s.advanceT0 add).bmEpoch = s.bmEpoch := rfl
@[simp] theorem State.advanceT0_config (s : State) (add : Byte) : (s.advanceT0 add).config = s.config := rfl
@[simp] theorem State.advanceT0_pending (s : State) (add : Byte) : (s.advanceT0 add).pending = s.pending := rfl
@[simp] theorem State.advanceT0_responses (s : State) (add : Byte) : (s.advanceT0 add).responses = s.responses := rfl

/-! ### `clearFirstFlag` -/

@[simp] theorem State.clearFirstFlag_h (s : State) : (s.clearFirstFlag).h = s.h := rfl
@[simp] theorem State.clearFirstFlag_t0 (s : State) : (s.clearFirstFlag).t0 = s.t0 := rfl
@[simp] theorem State.clearFirstFlag_t1 (s : State) : (s.clearFirstFlag).t1 = s.t1 &&& firstFlagMask := rfl
@[simp] theorem State.clearFirstFlag_nsel (s : State) : (s.clearFirstFlag).nsel = s.nsel := rfl
@[simp] theorem State.clearFirstFlag_fault (s : State) : (s.clearFirstFlag).fault = s.fault := rfl
@[simp] theorem State.clearFirstFlag_cause (s : State) : (s.clearFirstFlag).cause = s.cause := rfl
@[simp] theorem State.clearFirstFlag_fop (s : State) : (s.clearFirstFlag).fop = s.fop := rfl
@[simp] theorem State.clearFirstFlag_bm (s : State) : (s.clearFirstFlag).bm = s.bm := rfl
@[simp] theorem State.clearFirstFlag_bmEpoch (s : State) : (s.clearFirstFlag).bmEpoch = s.bmEpoch := rfl
@[simp] theorem State.clearFirstFlag_config (s : State) : (s.clearFirstFlag).config = s.config := rfl
@[simp] theorem State.clearFirstFlag_pending (s : State) : (s.clearFirstFlag).pending = s.pending := rfl
@[simp] theorem State.clearFirstFlag_responses (s : State) : (s.clearFirstFlag).responses = s.responses := rfl

/-! ### `compress` -/

@[simp] theorem State.compress_t0 (s : State) (p : Nat) : (s.compress p).t0 = s.t0 := rfl
@[simp] theorem State.compress_t1 (s : State) (p : Nat) : (s.compress p).t1 = s.t1 := rfl
@[simp] theorem State.compress_nsel (s : State) (p : Nat) : (s.compress p).nsel = s.nsel := rfl
@[simp] theorem State.compress_fault (s : State) (p : Nat) : (s.compress p).fault = s.fault := rfl
@[simp] theorem State.compress_cause (s : State) (p : Nat) : (s.compress p).cause = s.cause := rfl
@[simp] theorem State.compress_fop (s : State) (p : Nat) : (s.compress p).fop = s.fop := rfl
@[simp] theorem State.compress_bm (s : State) (p : Nat) : (s.compress p).bm = s.bm := rfl
@[simp] theorem State.compress_bmEpoch (s : State) (p : Nat) : (s.compress p).bmEpoch = s.bmEpoch := rfl
@[simp] theorem State.compress_config (s : State) (p : Nat) : (s.compress p).config = s.config := rfl
@[simp] theorem State.compress_pending (s : State) (p : Nat) : (s.compress p).pending = s.pending := rfl
@[simp] theorem State.compress_responses (s : State) (p : Nat) : (s.compress p).responses = s.responses := rfl

/-! ### `ubiBlock` -/

@[simp] theorem State.ubiBlock_t0 (s : State) (p : Nat) (add : Byte) : (s.ubiBlock p add).t0 = add64 s.t0 (add.zeroExtend 64) := rfl
@[simp] theorem State.ubiBlock_t1 (s : State) (p : Nat) (add : Byte) : (s.ubiBlock p add).t1 = s.t1 &&& firstFlagMask := rfl
@[simp] theorem State.ubiBlock_nsel (s : State) (p : Nat) (add : Byte) : (s.ubiBlock p add).nsel = s.nsel := rfl
@[simp] theorem State.ubiBlock_fault (s : State) (p : Nat) (add : Byte) : (s.ubiBlock p add).fault = s.fault := rfl
@[simp] theorem State.ubiBlock_cause (s : State) (p : Nat) (add : Byte) : (s.ubiBlock p add).cause = s.cause := rfl
@[simp] theorem State.ubiBlock_fop (s : State) (p : Nat) (add : Byte) : (s.ubiBlock p add).fop = s.fop := rfl
@[simp] theorem State.ubiBlock_bm (s : State) (p : Nat) (add : Byte) : (s.ubiBlock p add).bm = s.bm := rfl
@[simp] theorem State.ubiBlock_bmEpoch (s : State) (p : Nat) (add : Byte) : (s.ubiBlock p add).bmEpoch = s.bmEpoch := rfl
@[simp] theorem State.ubiBlock_config (s : State) (p : Nat) (add : Byte) : (s.ubiBlock p add).config = s.config := rfl
@[simp] theorem State.ubiBlock_pending (s : State) (p : Nat) (add : Byte) : (s.ubiBlock p add).pending = s.pending := rfl
@[simp] theorem State.ubiBlock_responses (s : State) (p : Nat) (add : Byte) : (s.ubiBlock p add).responses = s.responses := rfl

/-! ### `writeT` -/

@[simp] theorem State.writeT_h (s : State) (j : TweakIndex) (v : Word) : (s.writeT j v).h = s.h := by
  cases j <;> rfl
@[simp] theorem State.writeT_t0 (s : State) (j : TweakIndex) (v : Word) : (s.writeT j v).t0 = (match j with | .t0 => v | .t1 => s.t0) := by
  cases j <;> rfl
@[simp] theorem State.writeT_t1 (s : State) (j : TweakIndex) (v : Word) : (s.writeT j v).t1 = (match j with | .t0 => s.t1 | .t1 => v) := by
  cases j <;> rfl
@[simp] theorem State.writeT_nsel (s : State) (j : TweakIndex) (v : Word) : (s.writeT j v).nsel = s.nsel := by
  cases j <;> rfl
@[simp] theorem State.writeT_fault (s : State) (j : TweakIndex) (v : Word) : (s.writeT j v).fault = s.fault := by
  cases j <;> rfl
@[simp] theorem State.writeT_cause (s : State) (j : TweakIndex) (v : Word) : (s.writeT j v).cause = s.cause := by
  cases j <;> rfl
@[simp] theorem State.writeT_fop (s : State) (j : TweakIndex) (v : Word) : (s.writeT j v).fop = s.fop := by
  cases j <;> rfl
@[simp] theorem State.writeT_bm (s : State) (j : TweakIndex) (v : Word) : (s.writeT j v).bm = s.bm := by
  cases j <;> rfl
@[simp] theorem State.writeT_bmEpoch (s : State) (j : TweakIndex) (v : Word) : (s.writeT j v).bmEpoch = s.bmEpoch := by
  cases j <;> rfl
@[simp] theorem State.writeT_config (s : State) (j : TweakIndex) (v : Word) : (s.writeT j v).config = s.config := by
  cases j <;> rfl
@[simp] theorem State.writeT_pending (s : State) (j : TweakIndex) (v : Word) : (s.writeT j v).pending = s.pending := by
  cases j <;> rfl
@[simp] theorem State.writeT_responses (s : State) (j : TweakIndex) (v : Word) : (s.writeT j v).responses = s.responses := by
  cases j <;> rfl

/-! ### `storeWords` -/

@[simp] theorem State.storeWords_h (s : State) (a : Nat) (ws : List Word) : (s.storeWords a ws).h = s.h := by
  induction ws generalizing s a with
  | nil => rfl
  | cons w ws ih => exact (ih _ _).trans rfl
@[simp] theorem State.storeWords_t0 (s : State) (a : Nat) (ws : List Word) : (s.storeWords a ws).t0 = s.t0 := by
  induction ws generalizing s a with
  | nil => rfl
  | cons w ws ih => exact (ih _ _).trans rfl
@[simp] theorem State.storeWords_t1 (s : State) (a : Nat) (ws : List Word) : (s.storeWords a ws).t1 = s.t1 := by
  induction ws generalizing s a with
  | nil => rfl
  | cons w ws ih => exact (ih _ _).trans rfl
@[simp] theorem State.storeWords_nsel (s : State) (a : Nat) (ws : List Word) : (s.storeWords a ws).nsel = s.nsel := by
  induction ws generalizing s a with
  | nil => rfl
  | cons w ws ih => exact (ih _ _).trans rfl
@[simp] theorem State.storeWords_fault (s : State) (a : Nat) (ws : List Word) : (s.storeWords a ws).fault = s.fault := by
  induction ws generalizing s a with
  | nil => rfl
  | cons w ws ih => exact (ih _ _).trans rfl
@[simp] theorem State.storeWords_cause (s : State) (a : Nat) (ws : List Word) : (s.storeWords a ws).cause = s.cause := by
  induction ws generalizing s a with
  | nil => rfl
  | cons w ws ih => exact (ih _ _).trans rfl
@[simp] theorem State.storeWords_fop (s : State) (a : Nat) (ws : List Word) : (s.storeWords a ws).fop = s.fop := by
  induction ws generalizing s a with
  | nil => rfl
  | cons w ws ih => exact (ih _ _).trans rfl
@[simp] theorem State.storeWords_bmEpoch (s : State) (a : Nat) (ws : List Word) : (s.storeWords a ws).bmEpoch = s.bmEpoch := by
  induction ws generalizing s a with
  | nil => rfl
  | cons w ws ih => exact (ih _ _).trans rfl
@[simp] theorem State.storeWords_config (s : State) (a : Nat) (ws : List Word) : (s.storeWords a ws).config = s.config := by
  induction ws generalizing s a with
  | nil => rfl
  | cons w ws ih => exact (ih _ _).trans rfl
@[simp] theorem State.storeWords_pending (s : State) (a : Nat) (ws : List Word) : (s.storeWords a ws).pending = s.pending := by
  induction ws generalizing s a with
  | nil => rfl
  | cons w ws ih => exact (ih _ _).trans rfl
@[simp] theorem State.storeWords_responses (s : State) (a : Nat) (ws : List Word) : (s.storeWords a ws).responses = s.responses := by
  induction ws generalizing s a with
  | nil => rfl
  | cons w ws ih => exact (ih _ _).trans rfl

/-! ### `ubiBlocks` -/

@[simp] theorem State.ubiBlocks_nsel (s : State) (p cnt : Nat) (add : Byte) : (s.ubiBlocks p cnt add).nsel = s.nsel := by
  induction cnt generalizing s p with
  | zero => rfl
  | succ k ih => exact (ih _ _).trans rfl
@[simp] theorem State.ubiBlocks_fault (s : State) (p cnt : Nat) (add : Byte) : (s.ubiBlocks p cnt add).fault = s.fault := by
  induction cnt generalizing s p with
  | zero => rfl
  | succ k ih => exact (ih _ _).trans rfl
@[simp] theorem State.ubiBlocks_cause (s : State) (p cnt : Nat) (add : Byte) : (s.ubiBlocks p cnt add).cause = s.cause := by
  induction cnt generalizing s p with
  | zero => rfl
  | succ k ih => exact (ih _ _).trans rfl
@[simp] theorem State.ubiBlocks_fop (s : State) (p cnt : Nat) (add : Byte) : (s.ubiBlocks p cnt add).fop = s.fop := by
  induction cnt generalizing s p with
  | zero => rfl
  | succ k ih => exact (ih _ _).trans rfl
@[simp] theorem State.ubiBlocks_bm (s : State) (p cnt : Nat) (add : Byte) : (s.ubiBlocks p cnt add).bm = s.bm := by
  induction cnt generalizing s p with
  | zero => rfl
  | succ k ih => exact (ih _ _).trans rfl
@[simp] theorem State.ubiBlocks_bmEpoch (s : State) (p cnt : Nat) (add : Byte) : (s.ubiBlocks p cnt add).bmEpoch = s.bmEpoch := by
  induction cnt generalizing s p with
  | zero => rfl
  | succ k ih => exact (ih _ _).trans rfl
@[simp] theorem State.ubiBlocks_config (s : State) (p cnt : Nat) (add : Byte) : (s.ubiBlocks p cnt add).config = s.config := by
  induction cnt generalizing s p with
  | zero => rfl
  | succ k ih => exact (ih _ _).trans rfl
@[simp] theorem State.ubiBlocks_pending (s : State) (p cnt : Nat) (add : Byte) : (s.ubiBlocks p cnt add).pending = s.pending := by
  induction cnt generalizing s p with
  | zero => rfl
  | succ k ih => exact (ih _ _).trans rfl
@[simp] theorem State.ubiBlocks_responses (s : State) (p cnt : Nat) (add : Byte) : (s.ubiBlocks p cnt add).responses = s.responses := by
  induction cnt generalizing s p with
  | zero => rfl
  | succ k ih => exact (ih _ _).trans rfl

end Sys2Proof.Machine
end

