-- ==== Sys2Proof/Laws/Memory.lean ====
section
/-! SUPPORT. Block memory: reading after writing, writing leaves every other address alone, and every operation keeps the
canonical form. -/

namespace Sys2Proof.Machine

/-! ### One byte -/

theorem Memory.lookup_write (m : Memory) (a x : Nat) (v : Byte) :
    (m.write a v).lookup x = if x = a then some v else m.lookup x := by
  induction m with
  | nil => simp only [Memory.write, Memory.lookup]
  | cons c m ih =>
    obtain ⟨b, w⟩ := c
    simp only [Memory.write]
    split
    · simp only [Memory.lookup]
    · split
      · simp only [Memory.lookup]
        split <;> simp_all
      · simp only [Memory.lookup, ih]
        by_cases hb : x = b
        · subst hb; simp only [if_true]; split
          · omega
          · rfl
        · simp only [if_neg hb]

@[simp] theorem Memory.lookup_write_same (m : Memory) (a : Nat) (v : Byte) :
    (m.write a v).lookup a = some v := by
  simp [Memory.lookup_write]

theorem Memory.lookup_write_other (m : Memory) {a x : Nat} (v : Byte) (h : x ≠ a) :
    (m.write a v).lookup x = m.lookup x := by
  simp [Memory.lookup_write, h]

/-- The cells after a write are the written one and cells that were there. -/
theorem Memory.mem_write {m : Memory} {a : Nat} {v : Byte} {c : Host.Cell} (h : c ∈ m.write a v) :
    c = (a, v) ∨ c ∈ m := by
  induction m with
  | nil => simpa [Memory.write] using h
  | cons d m ih =>
    obtain ⟨b, w⟩ := d
    simp only [Memory.write] at h
    split at h
    · simpa using h
    · split at h
      · rcases List.mem_cons.mp h with h | h
        · exact .inl h
        · exact .inr (List.mem_cons_of_mem _ h)
      · rcases List.mem_cons.mp h with h | h
        · exact .inr (h ▸ List.mem_cons_self)
        · exact (ih h).imp_right (List.mem_cons_of_mem _)

/-- A write keeps the canonical form. -/
theorem Memory.write_wf {m : Memory} (h : m.wf) (a : Nat) (v : Byte) : (m.write a v).wf := by
  induction m with
  | nil => simp [Memory.write, Memory.wf]
  | cons d m ih =>
    obtain ⟨b, w⟩ := d
    obtain ⟨hb, hm⟩ : (∀ k ∈ m.map Prod.fst, b < k) ∧ Memory.wf m := by simpa [Memory.wf] using h
    simp only [Memory.write]
    split
    · rename_i hab
      simp only [Memory.wf, List.map_cons, List.pairwise_cons]
      refine ⟨?_, hb, hm⟩
      intro k hk
      rcases List.mem_cons.mp hk with rfl | hk
      · exact hab
      · exact hab.trans (hb k hk)
    · split
      · rename_i hab
        subst hab
        simpa [Memory.wf] using h
      · simp only [Memory.wf, List.map_cons, List.pairwise_cons]
        refine ⟨?_, ih hm⟩
        intro k hk
        obtain ⟨c, hc, rfl⟩ := List.mem_map.mp hk
        rcases Memory.mem_write hc with rfl | hc
        · show b < a
          omega
        · exact hb _ (List.mem_map_of_mem hc)

/-! ### Successive bytes -/

theorem Memory.lookup_writeBytes (m : Memory) (a x : Nat) (bs : List Byte) :
    (m.writeBytes a bs).lookup x =
      if a ≤ x ∧ x < a + bs.length then bs[x - a]? else m.lookup x := by
  induction bs generalizing m a with
  | nil =>
    rw [if_neg (by simp only [List.length_nil]; omega)]
    rfl
  | cons b bs ih =>
    simp only [Memory.writeBytes, ih, Memory.lookup_write, List.length_cons]
    by_cases hx : x = a
    · subst hx
      rw [if_neg (by omega), if_pos rfl, if_pos (by omega)]
      simp
    · by_cases hin : a + 1 ≤ x ∧ x < a + 1 + bs.length
      · rw [if_pos hin, if_pos (by omega)]
        obtain ⟨k, rfl⟩ : ∃ k, x = a + 1 + k := ⟨x - (a + 1), by omega⟩
        simp [show a + 1 + k - (a + 1) = k by omega, show a + 1 + k - a = k + 1 by omega]
      · rw [if_neg hin, if_neg hx, if_neg (by omega)]

theorem Memory.writeBytes_wf {m : Memory} (h : m.wf) (a : Nat) (bs : List Byte) : (m.writeBytes a bs).wf := by
  induction bs generalizing m a with
  | nil => exact h
  | cons b bs ih => exact ih (Memory.write_wf h a b) (a + 1)

theorem Memory.mem_writeBytes {m : Memory} {a : Nat} {bs : List Byte} {c : Host.Cell}
    (h : c ∈ m.writeBytes a bs) : (a ≤ c.1 ∧ c.1 < a + bs.length) ∨ c ∈ m := by
  induction bs generalizing m a with
  | nil => exact .inr h
  | cons b bs ih =>
    rcases ih h with h | h
    · simp only [List.length_cons]; left; omega
    · rcases Memory.mem_write h with rfl | h
      · simp only [List.length_cons]; left; omega
      · exact .inr h

/-! ### Bytes of a word -/

@[simp] theorem leBytes_length (n : Nat) (v : Word) : (leBytes n v).length = n := by simp [leBytes]

theorem leBytes_getElem? (n k : Nat) (v : Word) :
    (leBytes n v)[k]? = if k < n then some (v.extractLsb' (8 * k) 8) else none := by
  by_cases h : k < n
  · simp [leBytes, h]
  · simp [leBytes, h]

@[simp] theorem serialize_length (ws : List Word) : (serialize ws).length = 8 * ws.length := by
  induction ws with
  | nil => rfl
  | cons w ws ih => simp only [serialize, List.flatMap_cons, List.length_append, leBytes_length,
      List.length_cons] at *; omega

/-- Storing words one after another is storing their serialisation (R63). -/
theorem State.storeWords_bm (s : State) (a : Nat) (ws : List Word) :
    (s.storeWords a ws).bm = s.bm.writeBytes a (serialize ws) := by
  induction ws generalizing s a with
  | nil => rfl
  | cons w ws ih =>
    simp only [State.storeWords, ih, State.memWrite_bm, serialize, List.flatMap_cons]
    have app (m : Memory) (p : Nat) (xs ys : List Byte) :
        (m.writeBytes p xs).writeBytes (p + xs.length) ys = m.writeBytes p (xs ++ ys) := by
      induction xs generalizing m p with
      | nil => rfl
      | cons x xs ihx =>
        simp only [Memory.writeBytes, List.cons_append, List.length_cons, ← ihx]
        congr 1
        omega
    simpa [serialize] using app s.bm a (leBytes 8 w) (serialize ws)

/-! ### The engine's reads -/

theorem State.readByte_congr {s t : State} {a : Nat} (hb : t.bm.lookup a = s.bm.lookup a)
    (he : t.bmEpoch = s.bmEpoch) : t.readByte a = s.readByte a := by
  simp only [State.readByte, hb, he]

/-- Reading a byte after a write: the written byte inside the written range, the old one outside. -/
theorem State.readByte_memWrite (s : State) (a n x : Nat) (v : Word) :
    (s.memWrite a n v).readByte x =
      if a ≤ x ∧ x < a + n then v.extractLsb' (8 * (x - a)) 8 else s.readByte x := by
  simp only [State.readByte, State.memWrite_bm, State.memWrite_bmEpoch, Memory.lookup_writeBytes, leBytes_length]
  split
  · rw [leBytes_getElem?, if_pos (by omega)]; rfl
  · rfl

/-- Reading a byte after a store of words. -/
theorem State.readByte_storeWords (s : State) (a x : Nat) (ws : List Word) :
    (s.storeWords a ws).readByte x =
      if a ≤ x ∧ x < a + 8 * ws.length then (serialize ws).getD (x - a) 0 else s.readByte x := by
  simp only [State.readByte, State.storeWords_bm, State.storeWords_bmEpoch, Memory.lookup_writeBytes, serialize_length]
  split
  · rename_i h
    have hlt : x - a < (serialize ws).length := by rw [serialize_length]; omega
    simp [List.getD_eq_getElem?_getD, List.getElem?_eq_getElem hlt]
  · rfl

theorem leNat_lt (bs : List Byte) : leNat bs < 256 ^ bs.length := by
  induction bs with
  | nil => simp [leNat]
  | cons b bs ih =>
    have := b.isLt
    simp only [leNat, List.length_cons, Nat.pow_succ]
    omega

/-- The number whose bytes are those of a word is the word. -/
theorem leNat_leBytes (n : Nat) (v : Word) : leNat (leBytes n v) = v.toNat % 256 ^ n := by
  suffices h : ∀ (m k : Nat), leNat ((List.range' k m).map fun j => v.extractLsb' (8 * j) 8) =
      v.toNat / 256 ^ k % 256 ^ m by
    simpa [leBytes, List.range_eq_range'] using h n 0
  intro m
  induction m with
  | zero => intro k; simp [leNat, Nat.mod_one]
  | succ m ih =>
    intro k
    simp only [List.range'_succ, List.map_cons, leNat, ih]
    rw [BitVec.extractLsb'_toNat, Nat.shiftRight_eq_div_pow, Nat.pow_mul, pow_succ 256 m, mul_comm (256 ^ m) 256,
      Nat.mod_mul, Nat.div_div_eq_div_mul, pow_succ 256 k]

theorem State.readBytes_length (s : State) (a n : Nat) : (s.readBytes a n).length = n := by simp [State.readBytes]

@[simp] theorem State.readByte_respond (s : State) (e : Bool) (v : Word) (x : Nat) :
    (s.respond e v).readByte x = s.readByte x := rfl

@[simp] theorem State.readByte_answer (s : State) (v : Word) (x : Nat) : (s.answer v).readByte x = s.readByte x := rfl

/-- One byte of a number given by its bytes. -/
theorem leNat_div_mod (bs : List Byte) {k : Nat} (h : k < bs.length) : leNat bs / 256 ^ k % 256 = bs[k].toNat := by
  induction bs generalizing k with
  | nil => simp at h
  | cons b bs ih =>
    have := b.isLt
    cases k with
    | zero => simp [leNat]; omega
    | succ k =>
      simp only [leNat, List.getElem_cons_succ, pow_succ]
      rw [mul_comm (256 ^ k), ← Nat.div_div_eq_div_mul, show (b.toNat + 256 * leNat bs) / 256 = leNat bs by omega]
      exact ih (by simpa using h)

/-- A read of at most eight bytes is the number they make: nothing is lost to the width of a word. -/
theorem State.memRead_toNat (s : State) (a : Nat) {n : Nat} (h : n ≤ 8) :
    (s.memRead a n).toNat = leNat (s.readBytes a n) := by
  rw [State.memRead, BitVec.toNat_ofNat, Nat.mod_eq_of_lt]
  refine (leNat_lt _).trans_le ?_
  rw [State.readBytes_length]
  exact (Nat.pow_le_pow_right (by decide) h).trans (by norm_num)

/-- Byte k of a word read from block memory. -/
theorem State.memRead_byte (s : State) (a : Nat) {n k : Nat} (hn : n ≤ 8) (hk : k < n) :
    (s.memRead a n).extractLsb' (8 * k) 8 = s.readByte (a + k) := by
  apply BitVec.eq_of_toNat_eq
  rw [BitVec.extractLsb'_toNat, State.memRead_toNat _ _ hn, Nat.shiftRight_eq_div_pow, Nat.pow_mul]
  have := leNat_div_mod (s.readBytes a n) (by rwa [State.readBytes_length])
  norm_num at this ⊢
  rw [this]
  simp [State.readBytes]

theorem State.memRead_one (s : State) (a : Nat) : s.memRead a 1 = (s.readByte a).zeroExtend 64 := by
  apply BitVec.eq_of_toNat_eq
  rw [State.memRead_toNat _ _ (by omega)]
  have := (s.readByte a).isLt
  simp [State.readBytes, leNat]
  omega

/-- Reads of states whose bytes agree. -/
theorem State.memRead_congr {s t : State} {a n : Nat} (h : ∀ k < n, t.readByte (a + k) = s.readByte (a + k)) :
    t.memRead a n = s.memRead a n := by
  have : t.readBytes a n = s.readBytes a n :=
    List.map_congr_left fun k hk => h k (List.mem_range.mp hk)
  simp only [State.memRead, this]

/-- A word read where it was written. -/
theorem State.memRead_memWrite (s : State) (a : Nat) (v : Word) : (s.memWrite a 8 v).memRead a 8 = v := by
  apply BitVec.eq_of_toNat_eq
  have : (s.memWrite a 8 v).readBytes a 8 = leBytes 8 v := by
    apply List.map_congr_left
    intro j hj
    rw [State.readByte_memWrite, if_pos (by simp at hj; omega)]
    simp
  rw [State.memRead_toNat _ _ (by omega), this, leNat_leBytes]
  have := v.isLt
  omega

/-- Byte `8*i + k` of a serialisation (R63). -/
theorem serialize_getD (ws : List Word) {i k : Nat} (hi : i < ws.length) (hk : k < 8) :
    (serialize ws).getD (8 * i + k) 0 = (ws.getD i 0).extractLsb' (8 * k) 8 := by
  induction ws generalizing i with
  | nil => simp at hi
  | cons w ws ih =>
    have e : serialize (w :: ws) = leBytes 8 w ++ serialize ws := rfl
    cases i with
    | zero =>
      simp only [e, List.getD_eq_getElem?_getD]
      rw [List.getElem?_append_left (by simp; omega), leBytes_getElem?, if_pos (by omega)]
      simp
    | succ i =>
      have := ih (by simpa using hi)
      simp only [e, List.getD_eq_getElem?_getD] at this ⊢
      rw [List.getElem?_append_right (by simp; omega), leBytes_length,
        show 8 * (i + 1) + k - 8 = 8 * i + k by omega, this]
      simp

/-- Storing words writes block memory only. -/
theorem State.storeWords_frame (s : State) (a : Nat) (ws : List Word) :
    s.storeWords a ws = { s with bm := (s.storeWords a ws).bm } := by
  induction ws generalizing s a with
  | nil => rfl
  | cons w ws ih => simp only [State.storeWords]; rw [ih]; rfl

end Sys2Proof.Machine
end

