-- ==== Sys2Proof/Laws/Registers.lean ====
section
/-! SUPPORT. The chaining words: reading a word after an update, and the live words as a list. -/

namespace Sys2Proof.Machine

/-! ### One word -/

theorem State.readH_congr {s t : State} (h : t.h = s.h) (i : Nat) : t.readH i = s.readH i := by
  simp only [State.readH, h]

@[simp] theorem State.readH_writeH_same (s : State) {i : Nat} (h : i < 16) (v : Word) :
    (s.writeH i v).readH i = v := by
  simp [State.readH, h]

theorem State.readH_writeH_other (s : State) {i k : Nat} (h : k ≠ i) (v : Word) :
    (s.writeH i v).readH k = s.readH k := by
  simp [State.readH, Ne.symm h]

/-- The words written by `writeLiveH`, and the ones it keeps. -/
theorem State.readH_writeLiveH (s : State) (ws : List Word) {i : Nat} (h : i < 16) :
    (s.writeLiveH ws).readH i = ws.getD i (s.readH i) := by
  simp [State.readH, h]

@[simp] theorem State.readH_clear (s : State) (i : Nat) : s.clear.readH i = 0 := by
  simp only [State.readH, State.clear_h]
  by_cases h : i < 16
  · simp [h]
  · simp [h]

/-- Register files that agree on every word are equal. -/
theorem State.h_ext {s t : State} (h : ∀ i < 16, t.readH i = s.readH i) : t.h = s.h := by
  apply Vector.ext
  intro i hi
  simpa [State.readH, hi] using h i hi

/-! ### The live words -/

theorem Variant.words_le (n : Variant) : n.words ≤ 16 := by cases n <;> decide

theorem Variant.words_pos (n : Variant) : 4 ≤ n.words := by cases n <;> decide

theorem Variant.blockBytes_eq (n : Variant) : n.blockBytes = 8 * n.words := rfl

@[simp] theorem State.liveH_length (s : State) : s.liveH.length = s.nsel.words := by simp [State.liveH]

theorem State.liveH_getD (s : State) {i : Nat} (h : i < s.nsel.words) (v : Word) : s.liveH.getD i v = s.readH i := by
  simp [State.liveH, List.getD_eq_getElem?_getD, h]

theorem State.liveH_congr {s t : State} (hn : t.nsel = s.nsel) (h : ∀ i < s.nsel.words, t.readH i = s.readH i) :
    t.liveH = s.liveH := by
  simp only [State.liveH, hn]
  exact List.map_congr_left fun i hi => h i (List.mem_range.mp hi)

/-! ### Variant codes -/

theorem Variant.ofCode_lt {c : Nat} (h : c < 3) : ∃ n, Variant.ofCode c = some n := by
  match c, h with
  | 0, _ => exact ⟨_, rfl⟩
  | 1, _ => exact ⟨_, rfl⟩
  | 2, _ => exact ⟨_, rfl⟩

@[simp] theorem Variant.ofCode_code (n : Variant) : Variant.ofCode n.code.toNat = some n := by cases n <;> rfl

end Sys2Proof.Machine
end

