-- ==== Sys2Proof/Laws/Exec.lean ====
section
/-! SUPPORT. One lemma for the common preamble, one per meaning in a healthy engine, the engine with a fault pending, and
what one step can be. Later proofs cite these instead of unfolding `exec` and `step`. -/

namespace Sys2Proof.Machine

/-! ### The preamble -/

@[simp] theorem unlessFaulted_healthy {s : State} (h : s.fault = false) (s' : State) :
    unlessFaulted s s' = .next s' := by
  simp [unlessFaulted, h]

@[simp] theorem unlessFaulted_faulted {s : State} (h : s.fault = true) (s' : State) :
    unlessFaulted s s' = .next s.refuse := by
  simp [unlessFaulted, h]

/-- Everything the preamble can do. -/
theorem unlessFaulted_next {s s' t : State} (h : unlessFaulted s s' = .next t) :
    (s.fault = true ∧ t = s.refuse) ∨ (s.fault = false ∧ t = s') := by
  cases hf : s.fault
  · rw [unlessFaulted_healthy hf] at h; cases h; exact .inr ⟨rfl, rfl⟩
  · rw [unlessFaulted_faulted hf] at h; cases h; exact .inl ⟨rfl, rfl⟩

/-! ### The meanings in a healthy engine -/

section
variable {s : State} (h : s.Healthy)
include h

theorem exec_nop_healthy : exec .nop s = .next (s.answer 0) := unlessFaulted_healthy h _

theorem exec_setn_healthy (c : Nat) :
    exec (.setn c) s = .next (match Variant.ofCode c with
      | none => s.raise .badVariant Opcode.setn.byte
      | some n => (s.setVariant n).answer 0) := unlessFaulted_healthy h _

theorem exec_ldh_healthy (i : Nat) (v : Word) :
    exec (.ldh i v) s = .next (if s.nsel.words ≤ i then s.raise .badIndex Opcode.ldh.byte
      else (s.writeH i v).answer 0) := unlessFaulted_healthy h _

theorem exec_ldt_healthy (j : TweakIndex) (v : Word) :
    exec (.ldt j v) s = .next ((s.writeT j v).answer 0) := unlessFaulted_healthy h _

theorem exec_rdh_healthy (i : Nat) :
    exec (.rdh i) s = .next (if s.nsel.words ≤ i then s.raise .badIndex Opcode.rdh.byte
      else s.answer (s.readH i)) := unlessFaulted_healthy h _

theorem exec_rdt_healthy (j : TweakIndex) :
    exec (.rdt j) s = .next (s.answer (s.readT j)) := unlessFaulted_healthy h _

theorem exec_wrb_healthy (a : Addr) (b : Byte) :
    exec (.wrb a b) s = .next (if s.inRange a.toNat 1 then (s.memWrite a.toNat 1 (b.zeroExtend 64)).answer 0
      else s.raise .addrRange Opcode.wrb.byte) := unlessFaulted_healthy h _

theorem exec_wrw_healthy (a : Addr) (v : Word) :
    exec (.wrw a v) s = .next (if s.inRange a.toNat 8 then (s.memWrite a.toNat 8 v).answer 0
      else s.raise .addrRange Opcode.wrw.byte) := unlessFaulted_healthy h _

theorem exec_rdb_healthy (a : Addr) :
    exec (.rdb a) s = .next (if s.inRange a.toNat 1 then s.answer (s.memRead a.toNat 1)
      else s.raise .addrRange Opcode.rdb.byte) := unlessFaulted_healthy h _

theorem exec_rdw_healthy (a : Addr) :
    exec (.rdw a) s = .next (if s.inRange a.toNat 8 then s.answer (s.memRead a.toNat 8)
      else s.raise .addrRange Opcode.rdw.byte) := unlessFaulted_healthy h _

theorem exec_sth_healthy (a : Addr) :
    exec (.sth a) s = .next (if s.inRange a.toNat s.nsel.blockBytes then (s.storeWords a.toNat s.liveH).answer 0
      else s.raise .addrRange Opcode.sth.byte) := unlessFaulted_healthy h _

theorem exec_proc_healthy (p : Addr) (cnt : Nat) (add : Byte) :
    exec (.proc p cnt add) s = .next (if cnt = 0 then s.raise .zeroBlocks Opcode.proc.byte
      else if s.inRange p.toNat (cnt * s.nsel.blockBytes) then (s.ubiBlocks p.toNat cnt add).answer 0
      else s.raise .addrRange Opcode.proc.byte) := unlessFaulted_healthy h _

end

theorem exec_rst (s : State) : exec .rst s = .next (s.clear.answer 0) := rfl

theorem exec_rdst (s : State) : exec .rdst s = .next (s.answer s.status) := rfl

/-- While a fault is pending every command but RST and RDST is refused. -/
theorem exec_faulted {s : State} (h : s.fault = true) {i : Instr} (hr : i ≠ .rst) (hs : i ≠ .rdst) :
    exec i s = .next s.refuse := by
  cases i <;> first | exact absurd rfl hr | exact absurd rfl hs | exact unlessFaulted_faulted h _

/-! ### Everything a meaning can do -/

/-- What a command answers in a healthy engine: a fault of its own, or its effect. -/
theorem exec_cases {i : Instr} {s t : State} (h : exec i s = .next t) :
    (i = .rst ∧ t = s.clear.answer 0) ∨ (i = .rdst ∧ t = s.answer s.status) ∨
    (s.fault = true ∧ t = s.refuse) ∨
    (s.fault = false ∧
      ((∃ c, c ≠ Cause.none ∧ c.recordedWith i.opcode.byte = true ∧ t = s.raise c i.opcode.byte) ∨
      (i = .nop ∧ t = s.answer 0) ∨
      (∃ c n, i = .setn c ∧ Variant.ofCode c = some n ∧ t = (s.setVariant n).answer 0) ∨
      (∃ k v, i = .ldh k v ∧ k < s.nsel.words ∧ t = (s.writeH k v).answer 0) ∨
      (∃ j v, i = .ldt j v ∧ t = (s.writeT j v).answer 0) ∨
      (∃ k, i = .rdh k ∧ k < s.nsel.words ∧ t = s.answer (s.readH k)) ∨
      (∃ j, i = .rdt j ∧ t = s.answer (s.readT j)) ∨
      (∃ a b, i = .wrb a b ∧ s.inRange a.toNat 1 ∧ t = (s.memWrite a.toNat 1 (b.zeroExtend 64)).answer 0) ∨
      (∃ a v, i = .wrw a v ∧ s.inRange a.toNat 8 ∧ t = (s.memWrite a.toNat 8 v).answer 0) ∨
      (∃ a, i = .rdb a ∧ s.inRange a.toNat 1 ∧ t = s.answer (s.memRead a.toNat 1)) ∨
      (∃ a, i = .rdw a ∧ s.inRange a.toNat 8 ∧ t = s.answer (s.memRead a.toNat 8)) ∨
      (∃ a, i = .sth a ∧ s.inRange a.toNat s.nsel.blockBytes ∧ t = (s.storeWords a.toNat s.liveH).answer 0) ∨
      (∃ p cnt add, i = .proc p cnt add ∧ cnt ≠ 0 ∧ s.inRange p.toNat (cnt * s.nsel.blockBytes) ∧
        t = (s.ubiBlocks p.toNat cnt add).answer 0))) := by
  by_cases hr : i = .rst
  · subst hr; cases h; exact .inl ⟨rfl, rfl⟩
  by_cases hs : i = .rdst
  · subst hs; cases h; exact .inr (.inl ⟨rfl, rfl⟩)
  refine .inr (.inr ?_)
  cases hf : s.fault with
  | true => rw [exec_faulted hf hr hs] at h; cases h; exact .inl ⟨rfl, rfl⟩
  | false =>
    refine .inr ⟨rfl, ?_⟩
    cases i with
    | rst => exact absurd rfl hr
    | rdst => exact absurd rfl hs
    | nop => rw [exec_nop_healthy hf] at h; cases h; simp
    | setn c =>
      rw [exec_setn_healthy hf] at h
      cases hc : Variant.ofCode c <;> rw [hc] at h <;> cases h
      · exact .inl ⟨.badVariant, by decide, rfl, rfl⟩
      · simp [hc]
    | ldh k v =>
      rw [exec_ldh_healthy hf] at h
      split at h <;> cases h
      · exact .inl ⟨.badIndex, by decide, rfl, rfl⟩
      · simp; omega
    | ldt j v => rw [exec_ldt_healthy hf] at h; cases h; simp
    | rdh k =>
      rw [exec_rdh_healthy hf] at h
      split at h <;> cases h
      · exact .inl ⟨.badIndex, by decide, rfl, rfl⟩
      · simp; omega
    | rdt j => rw [exec_rdt_healthy hf] at h; cases h; simp
    | wrb a b =>
      rw [exec_wrb_healthy hf] at h
      split at h <;> cases h
      · right; simpa
      · exact .inl ⟨.addrRange, by decide, rfl, rfl⟩
    | wrw a v =>
      rw [exec_wrw_healthy hf] at h
      split at h <;> cases h
      · right; simpa
      · exact .inl ⟨.addrRange, by decide, rfl, rfl⟩
    | rdb a =>
      rw [exec_rdb_healthy hf] at h
      split at h <;> cases h
      · right; simpa
      · exact .inl ⟨.addrRange, by decide, rfl, rfl⟩
    | rdw a =>
      rw [exec_rdw_healthy hf] at h
      split at h <;> cases h
      · right; simpa
      · exact .inl ⟨.addrRange, by decide, rfl, rfl⟩
    | sth a =>
      rw [exec_sth_healthy hf] at h
      split at h <;> cases h
      · right; simpa
      · exact .inl ⟨.addrRange, by decide, rfl, rfl⟩
    | proc p cnt add =>
      rw [exec_proc_healthy hf] at h
      split at h
      · cases h; exact .inl ⟨.zeroBlocks, by decide, rfl, rfl⟩
      · split at h <;> cases h
        · right; simp_all
        · exact .inl ⟨.addrRange, by decide, rfl, rfl⟩

/-! ### One step -/

theorem State.consume_healthy {s : State} (h : s.Healthy) (rest : List HostInput) : (s.consume rest).Healthy := h

theorem step_idle {s : State} (h : s.pending = []) : step s = .next s := by simp only [step, h, idle]

theorem step_hardwareReset {s : State} {rest : List HostInput} (h : s.pending = .hardwareReset :: rest) :
    step s = .next ((s.consume rest).hardwareReset) := by
  simp only [step, h, applyHardwareReset]

theorem step_command {s : State} {w : Command} {rest : List HostInput} (h : s.Presents w rest) :
    step s = match decode w with
      | .ok i => exec i (s.consume rest)
      | .error _ => illegalCommand w (s.consume rest) := by
  cases hd : decode w <;> simp only [step, h, hd]

/-- A step on a word whose `op` is that of a command. -/
theorem step_of_op {s : State} {w : Command} {rest : List HostInput} {o : Opcode} (h : s.Presents w rest)
    (ho : opField w = o.byte) :
    step s = if w &&& o.format.reserved = 0 then exec (readOperands o w) (s.consume rest)
      else illegalCommand w (s.consume rest) := by
  rw [step_command h, decode_of_op ho]
  by_cases hr : w &&& o.format.reserved = 0
  · rw [if_pos hr, if_pos hr]
  · rw [if_neg hr, if_neg hr]

/-- A step on a word whose `op` is reserved. -/
theorem step_of_reserved_op {s : State} {w : Command} {rest : List HostInput} (h : s.Presents w rest)
    (ho : Opcode.ofByte (opField w) = none) : step s = illegalCommand w (s.consume rest) := by
  rw [step_command h, decode_of_reserved_op ho]

/-- An illegal word in a healthy engine. -/
theorem illegalCommand_healthy {s : State} (h : s.Healthy) (w : Command) :
    illegalCommand w s = .next (s.raise .illegalCmd (opField w)) := unlessFaulted_healthy h _

/-- An illegal word while a fault is pending. -/
theorem illegalCommand_faulted {s : State} (h : s.fault = true) (w : Command) :
    illegalCommand w s = .next s.refuse := unlessFaulted_faulted h _

/-- Everything a step can do. -/
theorem step_cases {s t : State} (h : step s = .next t) :
    (s.pending = [] ∧ t = s) ∨
    (∃ rest, s.pending = .hardwareReset :: rest ∧ t = (s.consume rest).hardwareReset) ∨
    (∃ w rest i, s.Presents w rest ∧ decode w = .ok i ∧ exec i (s.consume rest) = .next t) ∨
    (∃ w rest e, s.Presents w rest ∧ decode w = .error e ∧ illegalCommand w (s.consume rest) = .next t) := by
  match hp : s.pending with
  | [] => rw [step_idle hp] at h; cases h; exact .inl ⟨rfl, rfl⟩
  | .hardwareReset :: rest =>
    rw [step_hardwareReset hp] at h
    cases h
    exact .inr (.inl ⟨rest, rfl, rfl⟩)
  | .command w :: rest =>
    rw [step_command hp] at h
    cases hd : decode w with
    | ok i => rw [hd] at h; exact .inr (.inr (.inl ⟨w, rest, i, hp, hd, h⟩))
    | error e => rw [hd] at h; exact .inr (.inr (.inr ⟨w, rest, e, hp, hd, h⟩))

/-- A property that a state has and every step keeps holds of every state a run reaches. -/
theorem reaches_induction {P : State → Prop} {s t : State} (h0 : P s)
    (hstep : ∀ u v, P u → step u = .next v → P v) (h : Reaches s t) : P t := by
  induction h with
  | refl => exact h0
  | step _ hu ih => exact hstep _ _ ih hu

/-! ### Runs of commands -/

/-- A run completes exactly when it ends in a healthy state. -/
theorem completes_eq_some {is : List Instr} {s t : State} :
    completes is s = some t ↔ runCommands is s = .next t ∧ t.Healthy := by
  unfold completes
  cases runCommands is s with
  | next u =>
    cases hu : u.fault <;> simp only [hu, Bool.false_eq_true, if_false, if_true]
    · constructor
      · rintro ⟨⟩; exact ⟨rfl, hu⟩
      · rintro ⟨⟨⟩, -⟩; rfl
    · constructor
      · intro h; cases h
      · rintro ⟨⟨⟩, h⟩; rw [State.Healthy, hu] at h; cases h
  | fault r => simp
  | refused r => simp

end Sys2Proof.Machine
end

