-- ==== Sys2Proof/Laws/PerInstr.lean ====
section
/-! SUPPORT. Families of statements about every command as syntax: the opcode byte that the encoder writes, and the
reserved bits it leaves zero. -/

/-- The encoder writes the command's own `op` byte (R73). -/
def Sys2Proof.Laws.EncodedOpcode.Statement (i : Sys2Proof.Instr) : Prop :=
  Sys2Proof.opField (Sys2Proof.encode i) = i.opcode.byte

/-- The encoder of a well-formed command leaves every bit that its format reserves zero (R75). -/
def Sys2Proof.Laws.EncodedReserved.Statement (i : Sys2Proof.Instr) : Prop :=
  i.WellFormed → Sys2Proof.encode i &&& i.opcode.format.reserved = 0

namespace Sys2Proof.Laws

theorem encodedOpcode (i : Instr) : EncodedOpcode.Statement i := opField_encode i

end Sys2Proof.Laws

/-! ### The opcode byte -/

theorem Sys2Proof.Laws.EncodedOpcode.nop : Sys2Proof.Laws.EncodedOpcode.Statement .nop :=
  Sys2Proof.Laws.encodedOpcode _
theorem Sys2Proof.Laws.EncodedOpcode.rst : Sys2Proof.Laws.EncodedOpcode.Statement .rst :=
  Sys2Proof.Laws.encodedOpcode _
theorem Sys2Proof.Laws.EncodedOpcode.rdst : Sys2Proof.Laws.EncodedOpcode.Statement .rdst :=
  Sys2Proof.Laws.encodedOpcode _
theorem Sys2Proof.Laws.EncodedOpcode.setn (c : Nat) : Sys2Proof.Laws.EncodedOpcode.Statement (.setn c) :=
  Sys2Proof.Laws.encodedOpcode _
theorem Sys2Proof.Laws.EncodedOpcode.ldh (i : Nat) (v : Sys2Proof.Word) : Sys2Proof.Laws.EncodedOpcode.Statement (.ldh i v) :=
  Sys2Proof.Laws.encodedOpcode _
theorem Sys2Proof.Laws.EncodedOpcode.ldt (j : Sys2Proof.TweakIndex) (v : Sys2Proof.Word) : Sys2Proof.Laws.EncodedOpcode.Statement (.ldt j v) :=
  Sys2Proof.Laws.encodedOpcode _
theorem Sys2Proof.Laws.EncodedOpcode.rdh (i : Nat) : Sys2Proof.Laws.EncodedOpcode.Statement (.rdh i) :=
  Sys2Proof.Laws.encodedOpcode _
theorem Sys2Proof.Laws.EncodedOpcode.rdt (j : Sys2Proof.TweakIndex) : Sys2Proof.Laws.EncodedOpcode.Statement (.rdt j) :=
  Sys2Proof.Laws.encodedOpcode _
theorem Sys2Proof.Laws.EncodedOpcode.wrb (a : Sys2Proof.Addr) (b : Sys2Proof.Byte) : Sys2Proof.Laws.EncodedOpcode.Statement (.wrb a b) :=
  Sys2Proof.Laws.encodedOpcode _
theorem Sys2Proof.Laws.EncodedOpcode.wrw (a : Sys2Proof.Addr) (v : Sys2Proof.Word) : Sys2Proof.Laws.EncodedOpcode.Statement (.wrw a v) :=
  Sys2Proof.Laws.encodedOpcode _
theorem Sys2Proof.Laws.EncodedOpcode.rdb (a : Sys2Proof.Addr) : Sys2Proof.Laws.EncodedOpcode.Statement (.rdb a) :=
  Sys2Proof.Laws.encodedOpcode _
theorem Sys2Proof.Laws.EncodedOpcode.rdw (a : Sys2Proof.Addr) : Sys2Proof.Laws.EncodedOpcode.Statement (.rdw a) :=
  Sys2Proof.Laws.encodedOpcode _
theorem Sys2Proof.Laws.EncodedOpcode.sth (a : Sys2Proof.Addr) : Sys2Proof.Laws.EncodedOpcode.Statement (.sth a) :=
  Sys2Proof.Laws.encodedOpcode _
theorem Sys2Proof.Laws.EncodedOpcode.proc (p : Sys2Proof.Addr) (cnt : Nat) (add : Sys2Proof.Byte) : Sys2Proof.Laws.EncodedOpcode.Statement (.proc p cnt add) :=
  Sys2Proof.Laws.encodedOpcode _

/-! ### The reserved bits -/

theorem Sys2Proof.Laws.EncodedReserved.nop : Sys2Proof.Laws.EncodedReserved.Statement .nop := by
  intro _
  refine (Sys2Proof.reserved_z_iff _).mpr ?_
  rw [Sys2Proof.idxField_encode, Sys2Proof.addrField_encode, Sys2Proof.dataField_encode]
  exact ⟨rfl, rfl, rfl⟩
theorem Sys2Proof.Laws.EncodedReserved.rst : Sys2Proof.Laws.EncodedReserved.Statement .rst := by
  intro _
  refine (Sys2Proof.reserved_z_iff _).mpr ?_
  rw [Sys2Proof.idxField_encode, Sys2Proof.addrField_encode, Sys2Proof.dataField_encode]
  exact ⟨rfl, rfl, rfl⟩
theorem Sys2Proof.Laws.EncodedReserved.rdst : Sys2Proof.Laws.EncodedReserved.Statement .rdst := by
  intro _
  refine (Sys2Proof.reserved_z_iff _).mpr ?_
  rw [Sys2Proof.idxField_encode, Sys2Proof.addrField_encode, Sys2Proof.dataField_encode]
  exact ⟨rfl, rfl, rfl⟩
theorem Sys2Proof.Laws.EncodedReserved.setn (c : Nat) : Sys2Proof.Laws.EncodedReserved.Statement (.setn c) := by
  intro h
  replace h := of_decide_eq_true h
  refine (Sys2Proof.reserved_v_iff _).mpr ?_
  rw [Sys2Proof.idxField_encode, Sys2Proof.addrField_encode, Sys2Proof.dataField_encode]
  exact ⟨(Nat.mod_le c _).trans_lt h, rfl, rfl⟩
theorem Sys2Proof.Laws.EncodedReserved.ldh (i : Nat) (v : Sys2Proof.Word) : Sys2Proof.Laws.EncodedReserved.Statement (.ldh i v) := by
  intro h
  replace h := of_decide_eq_true h
  refine (Sys2Proof.reserved_hw_iff _).mpr ?_
  rw [Sys2Proof.idxField_encode, Sys2Proof.addrField_encode]
  exact ⟨(Nat.mod_le i _).trans_lt h, rfl⟩
theorem Sys2Proof.Laws.EncodedReserved.ldt (j : Sys2Proof.TweakIndex) (v : Sys2Proof.Word) : Sys2Proof.Laws.EncodedReserved.Statement (.ldt j v) := by
  intro _
  refine (Sys2Proof.reserved_tw_iff _).mpr ?_
  rw [Sys2Proof.idxField_encode, Sys2Proof.addrField_encode]
  exact ⟨by cases j <;> simp [Sys2Proof.Instr.idxBits, Sys2Proof.TweakIndex.code], rfl⟩
theorem Sys2Proof.Laws.EncodedReserved.rdh (i : Nat) : Sys2Proof.Laws.EncodedReserved.Statement (.rdh i) := by
  intro h
  replace h := of_decide_eq_true h
  refine (Sys2Proof.reserved_hr_iff _).mpr ?_
  rw [Sys2Proof.idxField_encode, Sys2Proof.addrField_encode, Sys2Proof.dataField_encode]
  exact ⟨(Nat.mod_le i _).trans_lt h, rfl, rfl⟩
theorem Sys2Proof.Laws.EncodedReserved.rdt (j : Sys2Proof.TweakIndex) : Sys2Proof.Laws.EncodedReserved.Statement (.rdt j) := by
  intro _
  refine (Sys2Proof.reserved_tr_iff _).mpr ?_
  rw [Sys2Proof.idxField_encode, Sys2Proof.addrField_encode, Sys2Proof.dataField_encode]
  exact ⟨by cases j <;> simp [Sys2Proof.Instr.idxBits, Sys2Proof.TweakIndex.code], rfl, rfl⟩
theorem Sys2Proof.Laws.EncodedReserved.wrb (a : Sys2Proof.Addr) (b : Sys2Proof.Byte) : Sys2Proof.Laws.EncodedReserved.Statement (.wrb a b) := by
  intro _
  refine (Sys2Proof.reserved_mb_iff _).mpr ?_
  rw [Sys2Proof.idxField_encode, Sys2Proof.dataField_encode]
  exact ⟨rfl, by have := b.isLt; simp [Sys2Proof.Instr.dataBits]; omega⟩
theorem Sys2Proof.Laws.EncodedReserved.wrw (a : Sys2Proof.Addr) (v : Sys2Proof.Word) : Sys2Proof.Laws.EncodedReserved.Statement (.wrw a v) := by
  intro _
  refine (Sys2Proof.reserved_mw_iff _).mpr ?_
  rw [Sys2Proof.idxField_encode]
  exact rfl
theorem Sys2Proof.Laws.EncodedReserved.rdb (a : Sys2Proof.Addr) : Sys2Proof.Laws.EncodedReserved.Statement (.rdb a) := by
  intro _
  refine (Sys2Proof.reserved_mr_iff _).mpr ?_
  rw [Sys2Proof.idxField_encode, Sys2Proof.dataField_encode]
  exact ⟨rfl, rfl⟩
theorem Sys2Proof.Laws.EncodedReserved.rdw (a : Sys2Proof.Addr) : Sys2Proof.Laws.EncodedReserved.Statement (.rdw a) := by
  intro _
  refine (Sys2Proof.reserved_mr_iff _).mpr ?_
  rw [Sys2Proof.idxField_encode, Sys2Proof.dataField_encode]
  exact ⟨rfl, rfl⟩
theorem Sys2Proof.Laws.EncodedReserved.sth (a : Sys2Proof.Addr) : Sys2Proof.Laws.EncodedReserved.Statement (.sth a) := by
  intro _
  refine (Sys2Proof.reserved_mr_iff _).mpr ?_
  rw [Sys2Proof.idxField_encode, Sys2Proof.dataField_encode]
  exact ⟨rfl, rfl⟩
theorem Sys2Proof.Laws.EncodedReserved.proc (p : Sys2Proof.Addr) (cnt : Nat) (add : Sys2Proof.Byte) : Sys2Proof.Laws.EncodedReserved.Statement (.proc p cnt add) := by
  intro h
  replace h := of_decide_eq_true h
  refine (Sys2Proof.reserved_p_iff _).mpr ?_
  rw [Sys2Proof.dataField_encode]
  exact (Nat.mod_le cnt _).trans_lt h
end

