-- ==== Sys2Proof/Laws/Threefish.lean ====
section
/-! SUPPORT. The permutation on lists of W words: every part keeps the length, and each part undoes its inverse. -/

namespace Sys2Proof.Machine

/-! ### The tables -/

@[simp] theorem Variant.pi_length (n : Variant) : n.pi.length = n.words := by cases n <;> rfl

theorem Variant.pi_lt (n : Variant) : ∀ j ∈ n.pi, j < n.words := by cases n <;> decide

/-- Each row of the rotation table has W/2 entries (R138, R162). -/
theorem Variant.rotationRow_length (n : Variant) (d : Nat) : 2 * (n.rotationRow d).length = n.words := by
  have h : ∀ n : Variant, ∀ k < 8, 2 * (n.rotations.getD k []).length = n.words := by
    intro n; cases n <;> decide
  exact h n (d % 8) (Nat.mod_lt _ (by decide))

/-- Every rotation amount lies between 1 and 63 (R137). -/
theorem Variant.rotationRow_range (n : Variant) (d : Nat) : ∀ r ∈ n.rotationRow d, 1 ≤ r ∧ r ≤ 63 := by
  have h : ∀ n : Variant, ∀ k < 8, ∀ r ∈ n.rotations.getD k [], 1 ≤ r ∧ r ≤ 63 := by
    intro n; cases n <;> decide
  exact h n (d % 8) (Nat.mod_lt _ (by decide))

/-! ### Lengths -/

@[simp] theorem keySchedule_length (k : List Word) : (keySchedule k).length = k.length + 1 := by
  simp [keySchedule]

@[simp] theorem subkey_length (n : Variant) (ks ts : List Word) (s : Nat) : (subkey n ks ts s).length = n.words := by
  simp [subkey]

theorem inject_length {n : Variant} {x : List Word} (h : x.length = n.words) (ks ts : List Word) (s : Nat) :
    (inject n ks ts s x).length = n.words := by
  simp [inject, h]

@[simp] theorem mixLayer_length (rs : List Nat) (x : List Word) : (mixLayer rs x).length = x.length := by
  fun_induction mixLayer rs x <;> simp_all

@[simp] theorem permute_length (n : Variant) (y : List Word) : (permute n y).length = n.words := by simp [permute]

@[simp] theorem round_length (n : Variant) (d : Nat) (x : List Word) : (round n d x).length = n.words := by
  simp [round]

theorem encryptRounds_length {n : Variant} {x : List Word} (h : x.length = n.words) (ks ts : List Word) (d : Nat) :
    (encryptRounds n ks ts d x).length = n.words := by
  induction d with
  | zero => exact h
  | succ d ih =>
    simp only [encryptRounds]
    split
    · exact inject_length (round_length _ _ _) _ _ _
    · exact round_length _ _ _

@[simp] theorem encrypt_length {n : Variant} {b : List Word} (h : b.length = n.words) (ks ts : List Word) :
    (encrypt n ks ts b).length = n.words :=
  encryptRounds_length (inject_length h _ _ _) _ _ _

/-! ### Words of a part -/

theorem subkey_getD {n : Variant} {i : Nat} (h : i < n.words) (ks ts : List Word) (s : Nat) :
    (subkey n ks ts s).getD i 0 = subkeyWord ks ts n.words s i := by
  simp [subkey, List.getD_eq_getElem?_getD, h]

theorem inject_getD {n : Variant} {x : List Word} {i : Nat} (hx : x.length = n.words) (h : i < n.words)
    (ks ts : List Word) (s : Nat) :
    (inject n ks ts s x).getD i 0 = x.getD i 0 + subkeyWord ks ts n.words s i := by
  have h1 : i < x.length := by omega
  have h2 : i < (subkey n ks ts s).length := by simpa using h
  rw [← subkey_getD h]
  simp only [inject, List.getD_eq_getElem?_getD, List.getElem?_zipWith, List.getElem?_eq_getElem h1,
    List.getElem?_eq_getElem h2, Option.getD_some]

theorem permute_getD {n : Variant} {i : Nat} (h : i < n.words) (y : List Word) :
    (permute n y).getD i 0 = y.getD (n.pi.getD i 0) 0 := by
  have h1 : i < n.pi.length := by simpa using h
  simp only [permute, List.getD_eq_getElem?_getD, List.getElem?_map, List.getElem?_eq_getElem h1, Option.map_some,
    Option.getD_some]

/-! ### Rotation -/

theorem rotl64_rotr64 (x : Word) {r : Nat} (h1 : 1 ≤ r) (h2 : r ≤ 63) : rotr64 (rotl64 x r) r = x := by
  apply BitVec.eq_of_getLsbD_eq
  intro i hi
  simp only [rotr64, rotl64, BitVec.getLsbD_rotateLeft]
  have e1 : (64 - r) % 64 = 64 - r := Nat.mod_eq_of_lt (by omega)
  have e2 : r % 64 = r := Nat.mod_eq_of_lt (by omega)
  simp only [e1, e2]
  by_cases hc : i < 64 - r
  · have : ¬ (64 - (64 - r) + i < r) := by omega
    simp [hc, this, show 64 - (64 - r) + i < 64 by omega, show 64 - (64 - r) + i - r = i by omega]
  · have h3 : i - (64 - r) < r := by omega
    simp [hc, hi, h3, show 64 - r + (i - (64 - r)) = i by omega]

/-- MIX_inv undoes MIX (R145). -/
theorem mixInv_mix (a b : Word) {r : Nat} (h1 : 1 ≤ r) (h2 : r ≤ 63) :
    mixInv (mix a b r).1 (mix a b r).2 r = (a, b) := by
  have : rotl64 b r ^^^ add64 a b ^^^ add64 a b = rotl64 b r := by simp
  simp [mixInv, mix, this, rotl64_rotr64 b h1 h2, sub64, add64]

end Sys2Proof.Machine
end

