-- ==== Sys2Proof/Laws/Ubi.lean ====
section
/-! SUPPORT. The UBI step and its iteration: what they write, the words and the tweak they leave, and how the blocks of
one iteration follow one another. -/

namespace Sys2Proof.Machine

/-! ### One block -/

/-- A UBI step writes H and T only (R170, R171). -/
theorem State.ubiBlock_frame (s : State) (p : Nat) (add : Byte) :
    s.ubiBlock p add =
      { s with h := (s.ubiBlock p add).h, t0 := s.t0 + add.zeroExtend 64, t1 := s.t1 &&& firstFlagMask } := rfl

@[simp] theorem State.blockWords_length (s : State) (p : Nat) : (s.blockWords p).length = s.nsel.words := by
  simp [State.blockWords]

theorem threefish_length {n : Variant} {b : List Word} (h : b.length = n.words) (k : List Word) (t0 t1 : Word) :
    (threefish n k t0 t1 b).length = n.words := encrypt_length h _ _

/-- The live words after a block: ciphertext xor block (R171, R172). -/
theorem State.ubiBlock_readH (s : State) (p : Nat) (add : Byte) {i : Nat} (h : i < s.nsel.words) :
    (s.ubiBlock p add).readH i =
      (threefish s.nsel s.liveH (add64 s.t0 (add.zeroExtend 64)) s.t1 (s.blockWords p)).getD i 0 ^^^
        (s.blockWords p).getD i 0 := by
  have h16 : i < 16 := h.trans_le s.nsel.words_le
  have hb := s.blockWords_length p
  have hc := threefish_length hb s.liveH (add64 s.t0 (add.zeroExtend 64)) s.t1
  refine (State.readH_writeLiveH _ _ h16).trans ?_
  show (List.zipWith (· ^^^ ·) (threefish s.nsel s.liveH (add64 s.t0 (add.zeroExtend 64)) s.t1 (s.blockWords p))
    (s.blockWords p)).getD i _ = _
  simp only [List.getD_eq_getElem?_getD, List.getElem?_zipWith]
  rw [List.getElem?_eq_getElem (by omega), List.getElem?_eq_getElem (by omega)]
  rfl

/-- The words above W are kept (R170). -/
theorem State.ubiBlock_readH_hidden (s : State) (p : Nat) (add : Byte) {i : Nat} (h : s.nsel.words ≤ i) :
    (s.ubiBlock p add).readH i = s.readH i := by
  by_cases h16 : i < 16
  · refine (State.readH_writeLiveH _ _ h16).trans ?_
    rw [List.getD_eq_default _ _ ?_]
    · rfl
    · simp only [List.length_zipWith]
      exact (Nat.min_le_right _ _).trans ((State.blockWords_length _ p).le.trans h)
  · simp [State.readH, h16]

/-- A UBI step depends on nothing but what it reads: of two states that differ elsewhere only, it makes the same words. -/
theorem State.ubiBlock_with (s : State) (q : List HostInput) (rs : List Response) (p : Nat) (add : Byte) :
    State.ubiBlock { s with pending := q, responses := rs } p add =
      { s.ubiBlock p add with pending := q, responses := rs } := rfl

/-! ### Many blocks -/

/-- The iteration writes H and T only (R170). -/
theorem State.ubiBlocks_frame (s : State) (p cnt : Nat) (add : Byte) :
    s.ubiBlocks p cnt add = { s with
      h := (s.ubiBlocks p cnt add).h, t0 := (s.ubiBlocks p cnt add).t0, t1 := (s.ubiBlocks p cnt add).t1 } := by
  induction cnt generalizing s p with
  | zero => rfl
  | succ n ih => simp only [State.ubiBlocks]; rw [ih]; rfl

/-- The last block of an iteration comes NB bytes after the one before it (R170). -/
theorem State.ubiBlocks_succ (s : State) (p cnt : Nat) (add : Byte) :
    s.ubiBlocks p (cnt + 1) add = (s.ubiBlocks p cnt add).ubiBlock (p + cnt * s.nsel.blockBytes) add := by
  induction cnt generalizing s p with
  | zero => simp [State.ubiBlocks]
  | succ n ih =>
    rw [State.ubiBlocks, ih, State.ubiBlock_nsel]
    simp only [State.ubiBlocks]
    rw [show p + s.nsel.blockBytes + n * s.nsel.blockBytes = p + (n + 1) * s.nsel.blockBytes by ring]

/-- The byte counter after some blocks (R173). -/
theorem State.ubiBlocks_t0 (s : State) (p cnt : Nat) (add : Byte) :
    (s.ubiBlocks p cnt add).t0.toNat = (s.t0.toNat + cnt * add.toNat) % 2 ^ 64 := by
  induction cnt with
  | zero => simp [State.ubiBlocks, Nat.mod_eq_of_lt s.t0.isLt]
  | succ n ih =>
    have hz : (add.zeroExtend 64).toNat = add.toNat := by simp; omega
    rw [State.ubiBlocks_succ, State.ubiBlock_t0, add64, BitVec.toNat_add, ih, hz, Nat.mod_add_mod, Nat.add_mul]
    congr 1
    ring

/-- T[1] after some blocks: as it stood, or with the first flag clear (R174). -/
theorem State.ubiBlocks_t1 (s : State) (p cnt : Nat) (add : Byte) :
    (s.ubiBlocks p cnt add).t1 = if cnt = 0 then s.t1 else s.t1 &&& firstFlagMask := by
  induction cnt with
  | zero => rfl
  | succ n ih =>
    rw [State.ubiBlocks_succ, State.ubiBlock_t1, ih, if_neg (Nat.succ_ne_zero n)]
    split
    · rfl
    · rw [BitVec.and_assoc, BitVec.and_self]

/-- The words above W are kept by every block (R170). -/
theorem State.ubiBlocks_readH_hidden (s : State) (p cnt : Nat) (add : Byte) {i : Nat} (h : s.nsel.words ≤ i) :
    (s.ubiBlocks p cnt add).readH i = s.readH i := by
  induction cnt with
  | zero => rfl
  | succ n ih => rw [State.ubiBlocks_succ, State.ubiBlock_readH_hidden _ _ _ (by simpa using h), ih]

/-- The bits of the mask that clears the first flag (R163). -/
theorem firstFlagMask_getLsbD (j : Nat) (h : j < 64) : firstFlagMask.getLsbD j = decide (j ≠ 62) := by
  revert j
  decide

theorem and_firstFlagMask_getLsbD (x : Word) {j : Nat} (h : j ≠ 62) :
    (x &&& firstFlagMask).getLsbD j = x.getLsbD j := by
  by_cases hj : j < 64
  · simp [firstFlagMask_getLsbD j hj, h]
  · rw [BitVec.getLsbD_of_ge _ _ (by omega), BitVec.getLsbD_of_ge _ _ (by omega)]

end Sys2Proof.Machine
end

