-- ==== Sys2Proof/Machine/HostProtocol.lean ====
section
/-! DEFINITION. The host's protocol (`46_host_protocol.md`): which commands a host that hashes a message gives the engine.
It binds the host, not the engine (R185): no step depends on it (log entry 17). -/

namespace Sys2Proof.Machine

/-! ### Tweak values -/

/-- What a block is used for (R186). -/
inductive BlockUse where
  | configuration | messageFirst | messageMiddle | messageLast | messageOnly | output
  deriving DecidableEq, Repr

/-- T1 before the PROC of a block, from the fields of R25: type 4, 48 or 63 and the two flags (R186). -/
def BlockUse.t1 : BlockUse → Word
  | .configuration => tweakFlags true true 4 false
  | .messageFirst => tweakFlags false true 48 false
  | .messageMiddle => tweakFlags false false 48 false
  | .messageLast => tweakFlags true false 48 false
  | .messageOnly => tweakFlags true true 48 false
  | .output => tweakFlags true true 63 false

/-- The mask with which the host sets FINAL by a read, an OR and a write of T1 (R190). -/
def finalFlag : Word := 0x8000000000000000

/-! ### Configuration and init -/

/-- The words of the configuration block for an output of that many bits (R187). A length that its 64-bit field cannot
hold has no configuration block, by the model's choice (log entry 21): the spec is silent on it. -/
def configBlock (n : Variant) (outputBits : Nat) : Option (List Word) :=
  if outputBits < 2 ^ 64 then
    some (0x0000000133414853 :: BitVec.ofNat 64 outputBits :: List.replicate (n.words - 2) 0)
  else none

/-- The commands of the pseudo-instructions in order; none where one of them has no expansion. -/
def expandAll (n : Variant) : List Pseudo → Option (List Instr)
  | [] => some []
  | q :: qs => (q.expand n).bind fun is => (expandAll n qs).map (is ++ ·)

/-- `init` by the engine: one UBI call over the configuration block at `p`, from H = 0 (R188). With a block at `p` that
passes the last 16-bit address there are no such commands, by the model's choice (log entry 22). -/
def initByEngine (n : Variant) (p : Addr) (outputBits : Nat) : Option (List Instr) :=
  (configBlock n outputBits).bind fun block =>
    (expandAll n [.wrblk p.toNat block, .ldhz, .ubi1 p 32 BlockUse.configuration.t1]).map (.setn n.code.toNat :: ·)

/-- The table of initial chaining states (R194). -/
def ivTable : Variant → Nat → Option (List Word)
  | .n256, 128 => some [
      0xE1111906964D7260, 0x883DAAA77C8D811C, 0x10080DF491960F7A, 0xCCF7DDE5B45BC1C2]
  | .n256, 160 => some [
      0x1420231472825E98, 0x2AC4E9A25A77E590, 0xD47A58568838D63E, 0x2DD2E4968586AB7D]
  | .n256, 224 => some [
      0xC6098A8C9AE5EA0B, 0x876D568608C5191C, 0x99CB88D7D7F53884, 0x384BDDB1AEDDB5DE]
  | .n256, 256 => some [
      0xFC9DA860D048B449, 0x2FCA66479FA7D833, 0xB33BC3896656840F, 0x6A54E920FDE8DA69]
  | .n512, 256 => some [
      0xCCD044A12FDB3E13, 0xE83590301A79A9EB, 0x55AEA0614F816E6F, 0x2A2767A4AE9B94DB,
      0xEC06025E74DD7683, 0xE7A436CDC4746251, 0xC36FBAF9393AD185, 0x3EEDBA1833EDFC13]
  | .n512, 384 => some [
      0xA3F6C6BF3A75EF5F, 0xB0FEF9CCFD84FAA4, 0x9D77DD663D770CFE, 0xD798CBF3B468FDDA,
      0x1BC4A6668A0E4465, 0x7ED7D434E5807407, 0x548FC1ACD4EC44D6, 0x266E17546AA18FF8]
  | .n512, 512 => some [
      0x4903ADFF749C51CE, 0x0D95DE399746DF03, 0x8FD1934127C79BCE, 0x9A255629FF352CB1,
      0x5DB62599DF6CA7B0, 0xEABE394CA9D5C3F4, 0x991112C71A75B523, 0xAE18A40B660FCC33]
  | .n1024, 512 => some [
      0xCAEC0E5D7C1B1B18, 0xA01B0E045F03E802, 0x33840451ED912885, 0x374AFB04EAEC2E1C,
      0xDF25A0E2813581F7, 0xE40040938B12F9D2, 0xA662D539C2ED39B6, 0xFA8B85CF45D8C75A,
      0x8316ED8E29EDE796, 0x053289C02E9F91B8, 0xC3F8EF1D6D518B73, 0xBDCEC3C4D5EF332E,
      0x549A7E5222974487, 0x670708725B749816, 0xB9CD28FBF0581BD1, 0x0E2940B815804974]
  | .n1024, 1024 => some [
      0xD593DA0741E72355, 0x15B5E511AC73E00C, 0x5180E5AEBAF2C4F0, 0x03BD41D3FCBCAFAF,
      0x1CAEC6FD1983A898, 0x6E510B8BCDD0589F, 0x77E2BDFDC6394ADA, 0xC11E1DB524DCB0A3,
      0xD6D14AF9C6329AB5, 0x6A9B0BFC6EB67E0D, 0x9243C60DCCFF1332, 0x1A1F1DDE743F02D4,
      0x0996753C10ED0BB8, 0x6572DD22F2B4969A, 0x61FD3062D00A579A, 0x1DE0536E8682E539]
  | _, _ => none

/-- `init` by the table, for the outputs it has (R188). -/
def initByTable (n : Variant) (outputBits : Nat) : Option (List Instr) :=
  (ivTable n outputBits).bind fun iv => (expandAll n [.ldhv iv]).map (.setn n.code.toNat :: ·)

/-! ### Message blocks -/

/-- The blocks of a message: the last one, full or not, is held back until no byte follows it (R189); the empty message
is one empty block (R190). -/
def blocksOf (nb : Nat) : Nat → List Byte → List (List Byte)
  | 0, _ => []
  | fuel + 1, bs => if bs.length ≤ nb then [bs] else bs.take nb :: blocksOf nb fuel (bs.drop nb)

/-- The words of a block of bytes, filled up with zero bytes (R63, R190). -/
def wordsOf (n : Variant) (bs : List Byte) : List Word :=
  (List.range n.words).map fun i => BitVec.ofNat 64 (leNat ((bs.drop (8 * i)).take 8))

/-- The commands that process a message block by block in a buffer at `p`; `t` is T1 as it stands. The last block is
processed with FINAL set and with the bytes it has (R189, R190). A buffer that passes the last 16-bit address has no such
commands (log entry 22). -/
def blockCommands (n : Variant) (p : Addr) : Word → List (List Byte) → Option (List Instr)
  | _, [] => some []
  | t, [b] =>
    (expandAll n [.wrblk p.toNat (wordsOf n b)]).map
      (· ++ [.rdt .t1, .ldt .t1 (t ||| finalFlag), .proc p 1 (BitVec.ofNat 8 b.length)])
  | t, b :: bs =>
    (expandAll n [.wrblk p.toNat (wordsOf n b)]).bind fun is =>
      (blockCommands n p (t &&& firstFlagMask) bs).map
        (is ++ [.proc p 1 (BitVec.ofNat 8 n.blockBytes)] ++ ·)

/-- `update` and `final` on a message of whole bytes (R188, R189, R190). -/
def messageCommands (n : Variant) (p : Addr) (message : List Byte) : Option (List Instr) :=
  (expandAll n [.ldtw 0 BlockUse.messageFirst.t1]).bind fun is =>
    (blockCommands n p BlockUse.messageFirst.t1 (blocksOf n.blockBytes (message.length + 1) message)).map (is ++ ·)

/-! ### Output -/

/-- The commands of output block `c` from the chaining state `k` after the message (R191); none where the buffer passes
the last 16-bit address (log entry 22). -/
def outputCommands (n : Variant) (p : Addr) (k : List Word) (c : Nat) : Option (List Instr) :=
  expandAll n [
    .ldhv k, .wrblk p.toNat [BitVec.ofNat 64 c], .wrz (p.toNat + 8) (n.blockBytes - 8),
    .ubi1 p 8 BlockUse.output.t1, .rdhv]

/-- The words the host reads with `rdhv`: the data of the last W responses, in order (R81, R191). -/
def lastAnswers (n : Variant) (s : State) : List Word := ((s.responses.take n.words).map Response.data).reverse

/-- The bytes of `m` output blocks from counter `c` on (R191, R192); none when they have no commands (log entry 22), or when
one of their commands has faulted or been refused: the spec gives a hash no result then, and that it is none is the model's
choice (log entry 20, R220). -/
def outputBytes (n : Variant) (p : Addr) (k : List Word) : Nat → Nat → State → Option (List Byte)
  | 0, _, _ => some []
  | m + 1, c, s =>
    ((outputCommands n p k c).bind (completes · s)).bind fun t =>
      (outputBytes n p k m (c + 1) t).map (serialize (lastAnswers n t) ++ ·)

/-- The commands of a hash up to K: `init` by the engine, the message, and the read of K (R188 to R191). -/
def commandsToK (n : Variant) (p : Addr) (outputBits : Nat) (message : List Byte) : Option (List Instr) :=
  (initByEngine n p outputBits).bind fun init =>
    (messageCommands n p message).bind fun blocks => (expandAll n [.rdhv]).map (init ++ blocks ++ ·)

/-- `hash` of a message of whole bytes, with an output of whole bytes (R191, R192, R196), on an engine in state `s`. An
output of no bytes is a contract violation of the host and has no digest (R197). By the model's choice there is none
either for an output of 2^64 bits or more (log entry 21), for a buffer that passes the last 16-bit address (log entry
22), or for a run in which a command faults or is refused (a fault pending in `s`, or a buffer at `p` that does not lie
inside BM; log entry 20): such a run has gone wrong (R220). -/
def hashAll (n : Variant) (p : Addr) (digestBytes : Nat) (message : List Byte) (s : State) : Option (List Byte) :=
  if digestBytes = 0 then none
  else
    ((commandsToK n p (8 * digestBytes) message).bind (completes · s)).bind fun t =>
      (outputBytes n p (lastAnswers n t) ((digestBytes + n.blockBytes - 1) / n.blockBytes) 0 t).map
        (·.take digestBytes)

end Sys2Proof.Machine
end

