-- ==== Sys2Proof/Tests/Slice0.lean ====
section
/-! SUPPORT. The model's own tests. Every expected value stands in the spec (`95_test_vectors.md`, vector V<n>, or the
rule named); a `witness_` theorem shows a state and operands that meet all hypotheses of the obligation it is named
after. -/

namespace Sys2Proof.Tests

-- One test after another: a hundred kernel evaluations at once ask for more threads than the checker's memory limit holds.
set_option Elab.async false

open Sys2Proof.Machine

/-! ### Helpers -/

/-- The engine with one word at its port. -/
def port (s : State) (w : Command) : State := { s with pending := [.command w] }

/-- The state a word leads to. -/
def after (s : State) (w : Command) : State :=
  match step (port s w) with
  | .next t => t
  | _ => s

/-- What a word gets: ERR, DATA and the status word after it. -/
def outcome (s : State) (w : Command) : Option (Bool × Word × Word) :=
  match step (port s w) with
  | .next t => t.responses.head?.map fun r => (r.err, r.data, t.status)
  | _ => none

/-- The engine right after reset, in another variant. -/
def fresh (n : Variant) : State := { State.reset with nsel := n }

/-- The engine with a ZERO_BLOCKS fault pending. -/
def faulted : State := State.reset.raise .zeroBlocks 0x20

/-- An engine in which bytes have been written from an address on. -/
def withBytes (s : State) (a : Nat) (bs : List Byte) : State := { s with bm := s.bm.writeBytes a bs }

/-- The `n` bytes FF FE FD …: `seq(n)` of the vectors. -/
def seqBytes (n : Nat) : List Byte := (List.range n).map fun i => BitVec.ofNat 8 (255 - i)

/-- The bytes 10 11 12 … as `w` words: the key of the "incr" vectors. -/
def incrKey (w : Nat) : List Word :=
  (List.range w).map fun i => BitVec.ofNat 64 (leNat ((List.range 8).map fun k => BitVec.ofNat 8 (16 + 8 * i + k)))

/-- `seq(8 w)` as words. -/
def seqWords (w : Nat) : List Word :=
  (List.range w).map fun i => BitVec.ofNat 64 (leNat ((List.range 8).map fun k => BitVec.ofNat 8 (255 - (8 * i + k))))

/-- An engine whose chaining words from H[0] on are those. -/
def withH (s : State) (ws : List Word) : State := s.writeLiveH ws

/-! ### Well-formedness refuses each ill-formed term -/

theorem test_wellFormed_refuses_code_4 : ¬ (Instr.setn 4).WellFormed := by decide

theorem test_wellFormed_refuses_ldh_16 : ¬ (Instr.ldh 16 0).WellFormed := by decide

theorem test_wellFormed_refuses_rdh_16 : ¬ (Instr.rdh 16).WellFormed := by decide

theorem test_wellFormed_refuses_count_65536 : ¬ (Instr.proc 0 65536 0).WellFormed := by decide

/-! ### Decoding, encoding and the text form (V10, V11) -/

/-- V10, first half. -/
def writtenOut1 : List (Command × Instr) := [
    (0x000000000000000000000000, .nop), (0x010000000000000000000000, .rst), (0x020000000000000000000000, .rdst),
    (0x080000000000000000000000, .setn 0), (0x080100000000000000000000, .setn 1),
    (0x080200000000000000000000, .setn 2), (0x090F00000123456789ABCDEF, .ldh 15 0x0123456789ABCDEF),
    (0x0A010000FEDCBA9876543210, .ldt .t1 0xFEDCBA9876543210), (0x0B0900000000000000000000, .rdh 9)]

/-- V10, second half. -/
def writtenOut2 : List (Command × Instr) := [
    (0x0C0100000000000000000000, .rdt .t1), (0x1000123400000000000000AB, .wrb 0x1234 0xAB),
    (0x1100FFF88000000000000001, .wrw 0xFFF8 0x8000000000000001), (0x1200ABCD0000000000000000, .rdb 0xABCD),
    (0x130000010000000000000000, .rdw 0x0001), (0x140003800000000000000000, .sth 0x0380),
    (0x204001400000000000000003, .proc 0x0140 3 64), (0x20FFFFFF000000000000FFFF, .proc 0xFFFF 65535 255),
    (0x200000000000000000000001, .proc 0x0000 1 0)]

theorem test_decode_written_out_1 : ∀ p ∈ writtenOut1, decode p.1 = .ok p.2 := by decide +kernel

theorem test_decode_written_out_2 : ∀ p ∈ writtenOut2, decode p.1 = .ok p.2 := by decide +kernel

theorem test_encode_written_out : ∀ p ∈ writtenOut1 ++ writtenOut2, encode p.2 = p.1 := by decide +kernel

/-- V11, first half: the word and the status word after it. -/
def rejected1 : List (Command × Word) := [
    (0x030000000000000000000000, 0x030011), (0x0D0000000000000000000000, 0x0D0011),
    (0x150000000000000000000000, 0x150011), (0x210000000000000000000001, 0x210011),
    (0xFF0000000000000000000000, 0xFF0011), (0x000000000000000000000001, 0x000011),
    (0x010100000000000000000000, 0x010011), (0x020000010000000000000000, 0x020011),
    (0x080400000000000000000000, 0x080011), (0x080000010000000000000000, 0x080011),
    (0x080300000000000000000000, 0x080021)]

/-- V11, second half. -/
def rejected2 : List (Command × Word) := [
    (0x091000000000000000000000, 0x090011), (0x0B0000000000000000000001, 0x0B0011),
    (0x0A0200000000000000000000, 0x0A0011), (0x0C0000000000000000000001, 0x0C0011),
    (0x100000000000000000000100, 0x100011), (0x100100000000000000000000, 0x100011),
    (0x120000000000000000000001, 0x120011), (0x130100000000000000000000, 0x130011),
    (0x140000000000000000000001, 0x140011), (0x200000000000000000010001, 0x200011)]

theorem test_rejected_words_1 :
    (rejected1.map fun p => outcome State.reset p.1) = rejected1.map fun p => some (true, 0, p.2) := by decide +kernel

theorem test_rejected_words_2 :
    (rejected2.map fun p => outcome State.reset p.1) = rejected2.map fun p => some (true, 0, p.2) := by decide +kernel

/-- The assembly column of V10. -/
theorem test_assemble_written_out : ∀ p ∈ [
    ("rdst", 0x020000000000000000000000), ("setn 256", 0x080000000000000000000000),
    ("setn 512", 0x080100000000000000000000), ("setn 1024", 0x080200000000000000000000),
    ("ldh 15, 0x0123456789ABCDEF", 0x090F00000123456789ABCDEF),
    ("ldt 1, 0xFEDCBA9876543210", 0x0A010000FEDCBA9876543210), ("rdh 9", 0x0B0900000000000000000000),
    ("rdt 1", 0x0C0100000000000000000000)],
    (assemble (String.toList p.1)).map encode = some (p.2 : Command) := by decide +kernel

/-- R80: lower or upper case; an index, a byte and a count out of range have no command. -/
theorem test_assemble_case_and_ranges :
    assemble "WRB 0x10, 255".toList = some (.wrb 0x10 0xFF) ∧ assemble "wrb 16, 256".toList = none ∧
      assemble "ldh 16, 0".toList = none ∧ assemble "proc 0, 65536, 0".toList = none := by decide +kernel

/-- R81: `wrz 0xFFFC, 8` is `wrw 0xFFFC, 0`; one word more has no 16-bit address. -/
theorem test_wrz_at_the_last_addresses :
    (Pseudo.wrz 0xFFFC 8).expand .n256 = some [.wrw 0xFFFC 0] ∧ (Pseudo.wrz 0xFFFC 16).expand .n256 = none := by decide

/-! ### Control and registers (V12, V13, P4) -/

theorem test_nop_in_variant_512 : outcome (fresh .n512) 0x000000000000000000000000 = some (false, 0, 0x100) := by
  decide +kernel

theorem test_nop_is_refused_while_faulted : outcome faulted 0x000000000000000000000000 = some (true, 0, 0x200041) := by
  decide +kernel

theorem test_rst_leaves_the_fault_state : outcome faulted 0x010000000000000000000000 = some (false, 0, 0) := by
  decide +kernel

theorem test_rst_keeps_block_memory :
    (after (withBytes (fresh .n512) 5 [0xAA]) 0x010000000000000000000000).readByte 5 = 0xAA := by decide +kernel

theorem test_rdst_answers_while_faulted :
    outcome { faulted with nsel := .n512 } 0x020000000000000000000000 = some (false, 0x200141, 0x200141) := by
  decide +kernel

theorem test_rdst_with_a_reserved_bit_is_refused :
    outcome { faulted with nsel := .n512 } 0x020000000000000000000001 = some (true, 0, 0x200141) := by decide +kernel

theorem test_setn_512 : outcome State.reset 0x080100000000000000000000 = some (false, 0, 0x100) := by decide +kernel

theorem test_setn_keeps_hidden_words :
    (after ((fresh .n512).writeH 7 0xDEADBEEF00000001) 0x080000000000000000000000).h[7] = 0xDEADBEEF00000001 := by
  decide +kernel

theorem test_ldh_last_live_word :
    outcome State.reset 0x090300000000000000000001 = some (false, 0, 0) ∧
      (after State.reset 0x090300000000000000000001).readH 3 = 1 := by decide +kernel

theorem test_ldh_first_hidden_word : outcome (fresh .n512) 0x090800000000000000000001 = some (true, 0, 0x090131) := by
  decide +kernel

theorem test_ldt_keeps_the_first_flag : (after State.reset 0x0A0100004000000000000000).t1 = 0x4000000000000000 := by
  decide +kernel

theorem test_ldt_writes_one_word : (after State.reset 0x0A000000FFFFFFFFFFFFFFFF).t1 = 0 := by decide +kernel

theorem test_rdh_15 :
    outcome ((fresh .n1024).writeH 15 1) 0x0B0F00000000000000000000 = some (false, 1, 0x200) := by decide +kernel

theorem test_rdh_first_hidden_word : outcome State.reset 0x0B0400000000000000000000 = some (true, 0, 0x0B0031) := by
  decide +kernel

theorem test_rdt_1 :
    outcome { fresh .n512 with t1 := 0x4000000000000000 } 0x0C0100000000000000000000 =
      some (false, 0x4000000000000000, 0x100) := by decide +kernel

/-! ### Block memory (V14, V15, V16) -/

/-- V14 after its first four commands: BM[0x10..0x1F]. -/
def v14 : State :=
  withBytes State.reset 0x10
    [0xEF, 0xCD, 0xAB, 0x89, 0x67, 0x45, 0x23, 0x01, 0x88, 0x77, 0x66, 0x55, 0x44, 0x33, 0x22, 0x11]

theorem test_wrb_inside_a_word : (after v14 0x10000013000000000000005A).memRead 0x10 8 = 0x012345675AABCDEF := by
  decide +kernel

theorem test_wrb_first_byte_beyond : outcome State.reset 0x100004000000000000000001 = some (true, 0, 0x100051) := by
  decide +kernel

theorem test_wrw_is_little_endian :
    (after State.reset 0x110000100123456789ABCDEF).readBytes 0x10 8 =
      [0xEF, 0xCD, 0xAB, 0x89, 0x67, 0x45, 0x23, 0x01] := by decide +kernel

theorem test_wrw_one_byte_over :
    outcome State.reset 0x110003F90000000000000001 = some (true, 0, 0x110051) ∧
      (after State.reset 0x110003F90000000000000001).bm = [] := by decide +kernel

theorem test_rdb_last_byte_of_a_word : outcome v14 0x120000170000000000000000 = some (false, 0x01, 0) := by
  decide +kernel

theorem test_rdb_top_address_does_not_wrap :
    outcome State.reset 0x1200FFFF0000000000000000 = some (true, 0, 0x120051) := by decide +kernel

theorem test_rdw_unaligned : outcome v14 0x130000110000000000000000 = some (false, 0x880123456789ABCD, 0) := by
  decide +kernel

theorem test_rdw_top_address_does_not_wrap :
    outcome State.reset 0x1300FFFF0000000000000000 = some (true, 0, 0x130051) := by decide +kernel

/-- V15: H holds the bytes 01 to 20. -/
theorem test_sth_unaligned :
    (after (withH State.reset [0x0807060504030201, 0x100F0E0D0C0B0A09, 0x1817161514131211, 0x201F1E1D1C1B1A19])
      0x140000050000000000000000).readBytes 5 32 = (List.range 32).map fun k => BitVec.ofNat 8 (k + 1) := by
  decide +kernel

theorem test_sth_one_byte_over : outcome (fresh .n1024) 0x140003810000000000000000 = some (true, 0, 0x140251) := by
  decide +kernel

/-! ### PROC (V42, V43, V44, V48) -/

/-- The 256/256 IV of R194. -/
def iv256 : List Word := [0xFC9DA860D048B449, 0x2FCA66479FA7D833, 0xB33BC3896656840F, 0x6A54E920FDE8DA69]

/-- V42: two blocks at an unaligned address, the first flag clear after them, the byte counter at 0x40. -/
theorem test_proc_two_blocks :
    let t := after (withBytes { withH State.reset iv256 with t1 := 0x7000000000000000 } 0x101 (seqBytes 64))
      0x202001010000000000000002
    t.liveH = [0x2331B5D5565623CC, 0x5F40D2857106524A, 0xEA235A2C278F8054, 0x9E25EDD9D5AB477E] ∧
      t.t0 = 0x40 ∧ t.t1 = 0x3000000000000000 := by decide +kernel

/-- V43: a second block beyond BM, no blocks before a range, and the top of every operand. -/
theorem test_proc_operand_checks :
    outcome State.reset 0x200003E00000000000000002 = some (true, 0, 0x200051) ∧
      outcome State.reset 0x2000FFFF0000000000000000 = some (true, 0, 0x200041) ∧
      outcome State.reset 0x20FFFFFF000000000000FFFF = some (true, 0, 0x200051) := by decide +kernel

/-- V44, second row: T0 wraps with no carry into T1, of which only bit 62 changes. -/
theorem test_ubiBlock_wraps_t0 :
    let t := (withBytes { State.reset with t0 := 0xFFFFFFFFFFFFFFFF, t1 := 0xFFFFFFFFFFFFFFFF } 0
      (List.replicate 32 0)).ubiBlock 0 255
    t.liveH = [0xFED25350E11A4554, 0x18AB4B2FE5464566, 0x8A606C4F14E87BC4, 0x297AAEF8398DAA95] ∧
      t.t0 = 0xFE ∧ t.t1 = 0xBFFFFFFFFFFFFFFF := by decide +kernel

/-! ### The schedules and the permutation (V20 to V25, V32, V34) -/

theorem test_keySchedule_parity :
    (keySchedule [1, 2, 4, 8]).getD 4 0 = 0x1BD11BDAA9FC1A2D ∧
      (keySchedule ((List.range 16).map fun i => BitVec.ofNat 64 (i + 1))).getD 16 0 = 0x1BD11BDAA9FC1A32 := by
  decide +kernel

theorem test_tweakSchedule :
    tweakSchedule 0x20 0xC400000000000000 = [0x20, 0xC400000000000000, 0xC400000000000020] := by decide

theorem test_inject_w4_s17 :
    inject .n256 [0x10, 0x20, 0x30, 0x40, 0x50] [0x1000, 0x2000, 0x3000] 17 [0, 0, 0, 0] =
      [0x30, 0x3040, 0x1050, 0x21] := by decide

theorem test_inject_wraps :
    inject .n256 [1, 1, 1, 1, 1] [1, 1, 0] 1 (List.replicate 4 0xFFFFFFFFFFFFFFFF) = [0, 1, 0, 1] := by decide

theorem test_inject_w8_s9 :
    inject .n512 [0x100, 0x200, 0x300, 0x400, 0x500, 0x600, 0x700, 0x800, 0x900] [1, 2, 3] 9 (List.replicate 8 0) =
      [0x100, 0x200, 0x300, 0x400, 0x500, 0x601, 0x702, 0x809] := by decide

theorem test_mix :
    mix 0xFFFFFFFFFFFFFFFF 1 16 = (0, 0x10000) ∧
      mix 0x0123456789ABCDEF 0xFEDCBA9876543210 52 = (0xFFFFFFFFFFFFFFFF, 0xDEF0123456789ABC) ∧
      mix 0 0x8000000000000001 63 = (0x8000000000000001, 0x4000000000000001) := by decide

theorem test_round_0_w4 : Machine.round .n256 0 [1, 2, 3, 4] = [0x3, 0x40007, 0x7, 0x8003] := by decide

theorem test_round_0_w8 :
    Machine.round .n512 0 [1, 2, 3, 4, 5, 6, 7, 8] =
      [0x7, 0x800000000003, 0xB, 0x1000000000F, 0xF, 0x30000B, 0x3, 0x4000000007] := by decide

theorem test_round_0_w16 :
    Machine.round .n1024 0 [1, 2, 3, 4, 5, 6, 7, 8, 9, 10, 11, 12, 13, 14, 15, 16] =
      [0x3, 0xA13, 0x7, 0x380001B, 0xF, 0x180017, 0xB, 0x2000000001F,
        0x17, 0x400000000000F, 0x1B, 0x8007, 0x1F, 0x60B, 0x13, 0x2000003] := by decide +kernel

/-- V30: X after injection 1 and after round 8 of the all-zero key, tweak and block. -/
theorem test_encryptRounds_w4_trace :
    encryptRounds .n256 (keySchedule [0, 0, 0, 0]) [0, 0, 0] 4 [0, 0, 0, 0] = [0, 0, 0, 0x1BD11BDAA9FC1A23] ∧
      encryptRounds .n256 (keySchedule [0, 0, 0, 0]) [0, 0, 0] 7 [0, 0, 0, 0] =
        [0x63FA4B77485A47B9, 0xBAA8B733FFC5F70B, 0xDF1DD9717FB52424, 0xEF950F1822FDB7D1] := by decide +kernel

theorem test_threefish_256 :
    threefish .n256 (incrKey 4) 0x0706050403020100 0x0F0E0D0C0B0A0908 (seqWords 4) = [
      0xDF8FEA0EFF91D0E0, 0xD50AD82EE69281C9, 0x76F48D58085D869D, 0xDF975E95B5567065] := by decide +kernel

theorem test_threefish_512 :
    threefish .n512 (incrKey 8) 0x0706050403020100 0x0F0E0D0C0B0A0908 (seqWords 8) = [
      0x2C5AD426964304E3, 0x9A2436D6D8CA01B4, 0xDD456DB00E333863, 0x794725970EB9368B, 0x043546998D0A2A27,
      0x25A7C918EA204478, 0x346201A1FEDF11AF, 0x3DAF1C5C3D672789] := by decide +kernel

theorem test_threefish_1024 :
    threefish .n1024 (incrKey 16) 0x0706050403020100 0x0F0E0D0C0B0A0908 (seqWords 16) = [
      0xB0C33CD7DB4D65A6, 0xBC49A85A1077D75D, 0x6855FCAFEA7293E4, 0x1C5385AB1B7754D2, 0x30E4AAFFE780F794,
      0xE1BBEE708CAFD8D5, 0x9CA837B7423B0F76, 0xBD1403670D4963B3, 0x451F2E3CE61EA48A, 0xB360832F9277D4FB,
      0x0AAFC7A65E12D688, 0xC8906E79016D05D7, 0xB316570A15F41333, 0x74E98A2869F5D50E, 0x57CE6F9247432BCE,
      0xDE7CDD77215144DE] := by decide +kernel

/-! ### The host's protocol (V1, V2, R186, R194)

V1 and V2 are the two digests the spec's source itself gives; each is one evaluation of `hashAll`. -/

theorem test_block_use_tweaks :
    [BlockUse.configuration, .messageFirst, .messageMiddle, .messageLast, .messageOnly, .output].map BlockUse.t1 =
      [0xC400000000000000, 0x7000000000000000, 0x3000000000000000, 0xB000000000000000, 0xF000000000000000,
        0xFF00000000000000] := by decide

theorem test_hash_256_of_nothing :
    hashAll .n256 0 32 [] State.reset = some [
      0xC8, 0x87, 0x70, 0x87, 0xDA, 0x56, 0xE0, 0x72, 0x87, 0x0D, 0xAA, 0x84, 0x3F, 0x17, 0x6E, 0x94, 0x53, 0x11,
      0x59, 0x29, 0x09, 0x4C, 0x3A, 0x40, 0xC4, 0x63, 0xA1, 0x96, 0xC2, 0x9B, 0xF7, 0xBA] := by decide +kernel

theorem test_hash_512_of_one_byte :
    hashAll .n512 0x40 64 [0xFF] State.reset = some [
      0x71, 0xB7, 0xBC, 0xE6, 0xFE, 0x64, 0x52, 0x22, 0x7B, 0x9C, 0xED, 0x60, 0x14, 0x24, 0x9E, 0x5B, 0xF9, 0xA9,
      0x75, 0x4C, 0x3A, 0xD6, 0x18, 0xCC, 0xC4, 0xE0, 0xAA, 0xE1, 0x6B, 0x31, 0x6C, 0xC8, 0xCA, 0x69, 0x8D, 0x86,
      0x43, 0x07, 0xED, 0x3E, 0x80, 0xB6, 0xEF, 0x15, 0x70, 0x81, 0x2A, 0xC5, 0x27, 0x2D, 0xC4, 0x09, 0xB5, 0xA0,
      0x12, 0xDF, 0x2A, 0x57, 0x91, 0x02, 0xF3, 0x40, 0x61, 0x7A] := by decide +kernel

/-- V46: a message that ends on a block boundary; its last block is held back. -/
theorem test_hash_256_of_two_blocks :
    hashAll .n256 0 32 (seqBytes 64) State.reset = some [
      0xDF, 0x28, 0xE9, 0x16, 0x63, 0x0D, 0x0B, 0x44, 0xC4, 0xA8, 0x49, 0xDC, 0x9A, 0x02, 0xF0, 0x7A, 0x07, 0xCB,
      0x30, 0xF7, 0x32, 0x31, 0x82, 0x56, 0xB1, 0x5D, 0x86, 0x5A, 0xC4, 0xAE, 0x16, 0x2F] := by decide +kernel

/-- `init` by the engine gives the words of the table (R188, R194). -/
theorem test_init_by_engine_meets_the_table :
    ((initByEngine .n512 0 256).bind (completes · State.reset)).map State.liveH = ivTable .n512 256 := by decide +kernel

/-- R220: a run that ends with a fault pending has gone wrong. The first WRW at 0x03F9 faults; a faulted engine refuses. -/
theorem test_hash_has_no_digest_after_a_fault :
    hashAll .n256 0x3F9 32 [] State.reset = none ∧ hashAll .n256 0 32 [] faulted = none := by decide +kernel

/-! ### Witnesses: each obligation's hypotheses can be met together -/

theorem witness_EncodedCommandsDecodeToThemselves :
    (Instr.setn 3).WellFormed ∧ (Instr.ldh 15 0xFFFFFFFFFFFFFFFF).WellFormed ∧ (Instr.rdh 15).WellFormed ∧
      (Instr.proc 0xFFFF 65535 255).WellFormed := by decide

theorem witness_DecodedWordsEncodeToThemselves :
    decode 0x20FFFFFF000000000000FFFF = .ok (.proc 0xFFFF 65535 255) := by decide

theorem witness_ReservedOpcodesRaiseIllegalCmd :
    (port State.reset 0x03FFFFFFFFFFFFFFFFFFFFFF).Presents 0x03FFFFFFFFFFFFFFFFFFFFFF [] ∧
      (port State.reset 0x03FFFFFFFFFFFFFFFFFFFFFF).Healthy ∧ opField 0x03FFFFFFFFFFFFFFFFFFFFFF ∉ legalOps :=
  ⟨rfl, rfl, by decide⟩

theorem witness_ReservedBitsRaiseIllegalCmd :
    ((port State.reset 0x080400000000000000000000).Presents 0x080400000000000000000000 [] ∧
      (port State.reset 0x080400000000000000000000).Healthy ∧ opField 0x080400000000000000000000 ∈ legalOps ∧
      reservedBitSet 0x080400000000000000000000 = true) ∧
    (port State.reset (mkCommand 0x08 3 0 0)).Presents (mkCommand 0x08 3 0 0) [] ∧
      (port State.reset (mkCommand 0x08 3 0 0)).Healthy :=
  ⟨⟨rfl, rfl, by decide, by decide⟩, rfl, rfl⟩

theorem witness_WrittenOperandsAssembleBack :
    (Instr.proc 0xFFFF 65535 255).WellFormed ∧
      operandNumbers (.proc 0xFFFF 65535 255) = some [65535, 65535, 255] := by decide

theorem witness_PseudoInstructionsExpand :
    (List.replicate 16 (0 : Word)).length = Variant.n1024.words ∧ (∀ k < [(1 : Word)].length, 0xFFFC + 8 * k < 65536) ∧
      (∀ k < 2, 0xFFF7 + 8 * k < 65536) ∧ (fresh .n1024).fault = false ∧ (fresh .n1024).nsel = .n1024 := by decide

theorem witness_StepRunsTheDecodedCommand :
    (port State.reset 0x0B0900000000000000000000).Presents 0x0B0900000000000000000000 [] ∧
      decode 0x0B0900000000000000000000 = .ok (.rdh 9) := ⟨rfl, by decide⟩

theorem witness_FaultedEngineRefusesAllButRdstAndRst :
    ((port faulted (mkCommand 0x02 0 0 0)).Presents (mkCommand 0x02 0 0 0) [] ∧
      (port faulted (mkCommand 0x02 0 0 0)).fault = true) ∧
    ((port faulted (mkCommand 0x01 0 0 0)).Presents (mkCommand 0x01 0 0 0) [] ∧
      (port faulted (mkCommand 0x01 0 0 0)).fault = true) ∧
    ((port faulted 0x020000000000000000000001).Presents 0x020000000000000000000001 [] ∧
      (port faulted 0x020000000000000000000001).fault = true ∧
      0x020000000000000000000001 ≠ mkCommand 0x02 0 0 0 ∧ 0x020000000000000000000001 ≠ mkCommand 0x01 0 0 0) :=
  ⟨⟨rfl, rfl⟩, ⟨rfl, rfl⟩, rfl, rfl, by decide, by decide⟩

theorem witness_IdleEngineStaysAsItIs : State.reset.pending = [] := rfl

/-- An engine about to be reset while a fault is pending. -/
def aboutToReset : State := { faulted with pending := [.hardwareReset, .command 0] }

theorem witness_HardwareResetAtThePort : aboutToReset.pending = .hardwareReset :: [.command 0] := rfl

/-- Both signs of ERR, and an answer that is not 0. -/
theorem witness_EveryCommandGetsOneResponse :
    (∃ t, step (port (fresh .n512) 0x020000000000000000000000) = .next t ∧ t.responses = [⟨false, 0x100⟩]) ∧
    (∃ t, step (port State.reset 0xFF0000000000000000000000) = .next t ∧ t.responses = [⟨true, 0⟩]) :=
  ⟨⟨_, rfl, by decide +kernel⟩, ⟨_, rfl, by decide +kernel⟩⟩

theorem witness_NopDoesNothing :
    State.reset.Healthy ∧
    ((port State.reset (mkCommand 0x00 0 0 1)).Presents (mkCommand 0x00 0 0 1) [] ∧
      (port State.reset (mkCommand 0x00 0 0 1)).Healthy) ∧ faulted.fault = true := ⟨rfl, ⟨rfl, rfl⟩, rfl⟩

theorem witness_RstClearsAllButBlockMemory :
    (port State.reset (mkCommand 0x01 1 0 0)).Presents (mkCommand 0x01 1 0 0) [] ∧
      (port faulted (mkCommand 0x01 0 0 0)).Presents (mkCommand 0x01 0 0 0) [] := ⟨rfl, rfl⟩

theorem witness_RdstAnswersTheStatusWord :
    (port State.reset (mkCommand 0x02 0 1 0)).Presents (mkCommand 0x02 0 1 0) [] ∧
      (port faulted (mkCommand 0x02 0 0 0)).Presents (mkCommand 0x02 0 0 0) [] := ⟨rfl, rfl⟩

theorem witness_SetnSelectsTheVariant :
    (State.reset.Healthy ∧ 2 = Variant.n1024.code.toNat) ∧
    (port State.reset (mkCommand 0x08 3 0 0)).Presents (mkCommand 0x08 3 0 0) [] ∧
      (port State.reset (mkCommand 0x08 3 0 0)).Healthy := ⟨⟨rfl, rfl⟩, rfl, rfl⟩

theorem witness_LdhLoadsOneChainingWord :
    ((fresh .n1024).Healthy ∧ 15 < (fresh .n1024).nsel.words) ∧
    (port State.reset (mkCommand 0x09 4 0 1)).Presents (mkCommand 0x09 4 0 1) [] ∧
      (port State.reset (mkCommand 0x09 4 0 1)).Healthy := ⟨⟨rfl, by decide⟩, rfl, rfl⟩

theorem witness_LdtLoadsOneTweakWord :
    State.reset.Healthy ∧ (port State.reset (mkCommand 0x0A 1 0 5)).Presents (mkCommand 0x0A 1 0 5) [] ∧
      (port State.reset (mkCommand 0x0A 1 0 5)).Healthy := ⟨rfl, rfl, rfl⟩

theorem witness_RdhAnswersOneChainingWord :
    ((fresh .n1024).Healthy ∧ 15 < (fresh .n1024).nsel.words) ∧
    (port State.reset (mkCommand 0x0B 4 0 0)).Presents (mkCommand 0x0B 4 0 0) [] ∧
      (port State.reset (mkCommand 0x0B 4 0 0)).Healthy := ⟨⟨rfl, by decide⟩, rfl, rfl⟩

theorem witness_RdtAnswersOneTweakWord :
    State.reset.Healthy ∧ (port State.reset (mkCommand 0x0C 1 0 0)).Presents (mkCommand 0x0C 1 0 0) [] ∧
      (port State.reset (mkCommand 0x0C 1 0 0)).Healthy := ⟨rfl, rfl, rfl⟩

/-- The last byte of block memory, and the first beyond it. -/
theorem witness_WrbStoresOneByte :
    (State.reset.Healthy ∧ (0x3FF : Addr).toNat + 1 ≤ State.reset.config.bmBytes) ∧
    (port State.reset (mkCommand 0x10 0 0x400 255)).Presents (mkCommand 0x10 0 0x400 255) [] ∧
      (port State.reset (mkCommand 0x10 0 0x400 255)).Healthy := ⟨⟨rfl, by decide⟩, rfl, rfl⟩

theorem witness_WrwStoresOneWord :
    (State.reset.Healthy ∧ (0x3F8 : Addr).toNat + 8 ≤ State.reset.config.bmBytes) ∧
    (port State.reset (mkCommand 0x11 0 0x3F9 7)).Presents (mkCommand 0x11 0 0x3F9 7) [] ∧
      (port State.reset (mkCommand 0x11 0 0x3F9 7)).Healthy := ⟨⟨rfl, by decide⟩, rfl, rfl⟩

theorem witness_RdbAnswersOneByte :
    (State.reset.Healthy ∧ (0x3FF : Addr).toNat + 1 ≤ State.reset.config.bmBytes) ∧
    (port State.reset (mkCommand 0x12 0 0x400 0)).Presents (mkCommand 0x12 0 0x400 0) [] ∧
      (port State.reset (mkCommand 0x12 0 0x400 0)).Healthy := ⟨⟨rfl, by decide⟩, rfl, rfl⟩

theorem witness_RdwAnswersOneWord :
    (State.reset.Healthy ∧ (0x3F8 : Addr).toNat + 8 ≤ State.reset.config.bmBytes) ∧
    (port State.reset (mkCommand 0x13 0 0x3F9 0)).Presents (mkCommand 0x13 0 0x3F9 0) [] ∧
      (port State.reset (mkCommand 0x13 0 0x3F9 0)).Healthy := ⟨⟨rfl, by decide⟩, rfl, rfl⟩

theorem witness_SthStoresTheChainingState :
    ((fresh .n1024).Healthy ∧
      (0x380 : Addr).toNat + 8 * (fresh .n1024).nsel.words ≤ (fresh .n1024).config.bmBytes) ∧
    (port (fresh .n1024) (mkCommand 0x14 0 0x381 0)).Presents (mkCommand 0x14 0 0x381 0) [] ∧
      (port (fresh .n1024) (mkCommand 0x14 0 0x381 0)).Healthy := ⟨⟨rfl, by decide⟩, rfl, rfl⟩

theorem witness_MemReadIsTheSumOfItsBytes : (1 = 1 ∨ 1 = 8) ∧ (8 = 1 ∨ 8 = 8) := by decide

theorem witness_MemWriteChangesItsBytesOnly : (8 = 1 ∨ 8 = 8) ∧ 7 < 8 ∧ (24 < 16 ∨ 16 + 8 ≤ 24) := by decide

theorem witness_MixedWidthsSeeTheSameBytes :
    State.reset.Healthy ∧ (0x3F8 : Addr).toNat + 8 ≤ State.reset.config.bmBytes ∧ 7 < 8 ∧
      (0x3FF : Addr).toNat = (0x3F8 : Addr).toNat + 7 := ⟨rfl, by decide, by decide, by decide⟩

/-- Unaligned addresses at the end of block memory, clause by clause. -/
theorem witness_AccessesInRangeNeedNoAlignment :
    State.reset.Healthy ∧ (0x3F7 : Addr).toNat + 8 ≤ State.reset.config.bmBytes ∧
      (0x3DF : Addr).toNat + State.reset.nsel.blockBytes ≤ State.reset.config.bmBytes ∧
      (31 ≠ 0 ∧ (0x1F : Addr).toNat + 31 * State.reset.nsel.blockBytes ≤ State.reset.config.bmBytes) :=
  ⟨rfl, by decide, by decide, by decide⟩

/-- The first address out of range, clause by clause. -/
theorem witness_AccessesOutOfRangeRaiseAddrRange :
    State.reset.Healthy ∧ State.reset.config.bmBytes < (0x400 : Addr).toNat + 1 ∧
      State.reset.config.bmBytes < (0x3F9 : Addr).toNat + 8 ∧
      State.reset.config.bmBytes < (0x3E1 : Addr).toNat + State.reset.nsel.blockBytes ∧
      (33 ≠ 0 ∧ State.reset.config.bmBytes < (0 : Addr).toNat + 33 * State.reset.nsel.blockBytes) :=
  ⟨rfl, by decide, by decide, by decide, by decide⟩

theorem witness_ProcIteratesUbiBlock :
    (State.reset.Healthy ∧ 32 ≠ 0 ∧
      (0 : Addr).toNat + 32 * State.reset.nsel.blockBytes ≤ State.reset.config.bmBytes ∧
      State.reset.nsel.words ≤ 4) ∧
    (port State.reset (mkCommand 0x20 0 0x3E1 1)).Presents (mkCommand 0x20 0 0x3E1 1) [] ∧
      (port State.reset (mkCommand 0x20 0 0x3E1 1)).Healthy := ⟨⟨rfl, by decide, by decide, by decide⟩, rfl, rfl⟩

theorem witness_ProcOfOneBlockIsOneUbiStep :
    State.reset.Healthy ∧ (0x3E0 : Addr).toNat + State.reset.nsel.blockBytes ≤ State.reset.config.bmBytes :=
  ⟨rfl, by decide⟩

theorem witness_ProcAdvancesTheByteCounter :
    State.reset.Healthy ∧ 32 ≠ 0 ∧
      (0 : Addr).toNat + 32 * State.reset.nsel.blockBytes ≤ State.reset.config.bmBytes ∧ 63 ≠ 62 :=
  ⟨rfl, by decide, by decide, by decide⟩

theorem witness_FirstFlagIsClearedAfterEachBlock : 63 ≠ 62 ∧ 61 ≠ 62 := by decide

theorem witness_ProcOfManyBlocksIsManyProcs :
    (fresh .n1024).Healthy ∧ (fresh .n1024).config.wf ∧ 8 ≠ 0 ∧
      (0 : Addr).toNat + 8 * (fresh .n1024).nsel.blockBytes ≤ (fresh .n1024).config.bmBytes :=
  ⟨rfl, by decide, by decide, by decide⟩

theorem witness_BlocksOfOneProcHaveDistinctTweaks : (1 : Byte) ≠ 0 ∧ 0 < 65535 ∧ 65535 < 65536 := by decide

theorem witness_RotationMovesEachBit : (1 ≤ 1 ∧ 1 ≤ 63) ∧ 1 ≤ 63 ∧ 63 ≤ 63 ∧ 63 < 64 := by decide

theorem witness_KeyScheduleAppendsTheParityWord :
    (incrKey 16).length = Variant.n1024.words ∧ 15 < Variant.n1024.words := by decide

theorem witness_InjectionAddsKeyTweakAndCounter :
    (seqWords 8).length = Variant.n512.words ∧ 7 < Variant.n512.words := by decide

theorem witness_MixLayerMixesNeighbourPairs :
    (seqWords 16).length = Variant.n1024.words ∧ 7 < Variant.n1024.words / 2 := by decide

theorem witness_PermutationReassignsEachSlot :
    ((seqWords 16).length = Variant.n1024.words ∧ 15 < Variant.n1024.words) ∧ (seqWords 4).length = 4 := by decide

theorem witness_DecryptionInvertsEncryption : (seqWords 16).length = Variant.n1024.words := by decide

theorem witness_InPlaceFormComputesTheSameCipher : (seqWords 8).length = Variant.n512.words := by decide

/-- A state with written bytes and a pending fault that meets the invariant, and its next state. -/
theorem witness_EveryStepKeepsTheInvariant :
    (withBytes (port faulted 0) 1023 [1]).Inv ∧ ∃ t, step (withBytes (port faulted 0) 1023 [1]) = .next t :=
  ⟨by decide, _, rfl⟩

/-- One command for each clause. -/
theorem witness_OnlyTheirCommandsWriteEachState :
    (∃ t, step (port State.reset 0x090000000000000000000001) = .next t ∧ t.h ≠ State.reset.h) ∧
    (∃ t, step (port State.reset 0x0A0000000000000000000001) = .next t ∧ t.t0 ≠ State.reset.t0) ∧
    (∃ t, step (port State.reset 0x080100000000000000000000) = .next t ∧ t.nsel ≠ State.reset.nsel) ∧
    (∃ t, step (port (withBytes State.reset 0 [0]) 0x100000000000000000000001) = .next t ∧
      t.readByte 0 ≠ (withBytes State.reset 0 [0]).readByte 0) ∧
    (∃ t, step (port State.reset 0xFF0000000000000000000000) = .next t ∧ t.fault ≠ State.reset.fault) :=
  ⟨⟨_, rfl, by decide +kernel⟩, ⟨_, rfl, by decide +kernel⟩, ⟨_, rfl, by decide +kernel⟩,
    ⟨_, rfl, by decide +kernel⟩, ⟨_, rfl, by decide +kernel⟩⟩

theorem witness_HiddenChainingWordsAreKept :
    (State.reset.Healthy ∧ State.reset.nsel.words ≤ 4 ∧ 4 ≤ 15) ∧
      (State.reset.Healthy ∧ State.reset.nsel.words ≤ 15 ∧ 15 ≤ 15) ∧
      (2 < 3 ∧ ∃ t, exec (.setn 2) State.reset = .next t) :=
  ⟨⟨rfl, by decide, by decide⟩, ⟨rfl, by decide, by decide⟩, by decide, _, rfl⟩

/-- Two engines that differ in H[15] only, about to store their chaining state. -/
theorem witness_HiddenChainingWordsDoNotLeak :
    let s := port State.reset 0x140000000000000000000000
    let s' := s.writeH 15 1
    s' = { s with h := s'.h } ∧ (∀ i < s.nsel.words, s'.readH i = s.readH i) ∧ s' ≠ s ∧
      (∃ t, step s = .next t) ∧ ∃ t', step s' = .next t' :=
  ⟨rfl, by decide +kernel, by decide +kernel, ⟨_, rfl⟩, ⟨_, rfl⟩⟩

/-- A word that faults, one that does not, and one that is refused. -/
theorem witness_FirstFiringTestDecidesTheCause :
    ((port State.reset 0x2000FFFF0000000000000000).Presents 0x2000FFFF0000000000000000 [] ∧
      (port State.reset 0x2000FFFF0000000000000000).Healthy ∧
      firstCause State.reset 0x2000FFFF0000000000000000 = some .zeroBlocks) ∧
    ((port State.reset 0x100003FF0000000000000000).Presents 0x100003FF0000000000000000 [] ∧
      (port State.reset 0x100003FF0000000000000000).Healthy ∧
      firstCause State.reset 0x100003FF0000000000000000 = none) ∧
    ((port faulted 0x020000000000000000000001).Presents 0x020000000000000000000001 [] ∧
      (port faulted 0x020000000000000000000001).fault = true ∧
      0x020000000000000000000001 ≠ mkCommand 0x02 0 0 0 ∧ 0x020000000000000000000001 ≠ mkCommand 0x01 0 0 0) :=
  ⟨⟨rfl, rfl, by decide⟩, ⟨rfl, rfl, by decide⟩, rfl, rfl, by decide, by decide⟩

/-- The two ways out of the fault state. -/
theorem witness_FaultStaysUntilReset :
    ((port faulted (mkCommand 0x01 0 0 0)).fault = true ∧
      ∃ t, step (port faulted (mkCommand 0x01 0 0 0)) = .next t ∧ t.fault = false) ∧
    (aboutToReset.fault = true ∧ ∃ t, step aboutToReset = .next t ∧ t.fault = false) :=
  ⟨⟨rfl, _, rfl, by decide +kernel⟩, rfl, _, rfl, by decide +kernel⟩

theorem witness_FaultedRunsWithoutRstNeverComplete :
    faulted.fault = true ∧ Instr.rst ∉ [Instr.nop, .rdst, .proc 0 1 0] := ⟨rfl, by decide⟩

/-! ### The host's probe: the first step after reset runs the word placed there -/

theorem test_withFetchWord_runs_first :
    (match step (State.reset.withFetchWord 96 0x080200000000000000000000) with
      | .next t => some t.nsel
      | _ => none) = some .n1024 := by decide +kernel

theorem test_decodeTableWord : decodeTableWord 96 0x204001400000000000000003 = some (.proc 0x0140 3 64) := by decide

end Sys2Proof.Tests
end

/-! ## The family `00_scope.md`: what every step keeps and answers, and word rotation (R8) -/

namespace Sys2Proof.Machine

/-! ### The state operations and the invariant -/

/-- The invariant speaks of `BM_BYTES`, block memory and STATUS only, so a state with the same ones meets it too. -/
theorem State.Inv.of_same {s t : State} (h : s.Inv) (hconfig : t.config = s.config) (hbm : t.bm = s.bm)
    (hfault : t.fault = s.fault) (hcause : t.cause = s.cause) (hfop : t.fop = s.fop) : t.Inv := by
  simpa only [State.Inv, State.bmInside, State.statusConsistent, hconfig, hbm, hfault, hcause, hfop] using h

/-- Clearing STATUS leaves it consistent: no fault, no cause, FOP = 0 (R27). -/
theorem State.Inv.clear {s : State} (h : s.Inv) : s.clear.Inv := by
  obtain ⟨hconfig, hwf, hinside, -⟩ := h
  exact ⟨hconfig, hwf, hinside, by simp, rfl⟩

/-- After hardware reset no byte of block memory is a written one. -/
theorem State.Inv.hardwareReset {s : State} (h : s.Inv) : s.hardwareReset.Inv := by
  obtain ⟨hconfig, -⟩ := h
  exact ⟨hconfig, List.Pairwise.nil, by simp [State.bmInside], by simp, rfl⟩

/-- A fault keeps STATUS consistent when R211 lets its cause be recorded with its opcode byte. -/
theorem State.Inv.raise {s : State} (h : s.Inv) {c : Cause} {o : BitVec 8} (hc : c ≠ .none)
    (hrec : c.recordedWith o = true) : (s.raise c o).Inv := by
  obtain ⟨hconfig, hwf, hinside, -⟩ := h
  exact ⟨hconfig, hwf, hinside, by simpa using hc, hrec⟩

/-- Bytes written in range (R54) lie inside `BM_BYTES` and keep block memory's form. -/
theorem State.Inv.writeBytes {s : State} (h : s.Inv) {a : Nat} {bs : List Byte} (hin : s.inRange a bs.length) :
    State.Inv { s with bm := s.bm.writeBytes a bs } := by
  obtain ⟨hconfig, hwf, hinside, hstatus⟩ := h
  refine ⟨hconfig, Memory.writeBytes_wf hwf a bs, fun c hc => ?_, hstatus⟩
  rcases Memory.mem_writeBytes hc with ⟨-, hlt⟩ | hold
  · exact hlt.trans_le hin
  · exact hinside c hold

theorem State.Inv.memWrite {s : State} (h : s.Inv) {a n : Nat} (hin : s.inRange a n) (v : Word) :
    (s.memWrite a n v).Inv :=
  h.writeBytes (bs := leBytes n v) (by simpa using hin)

/-- The loop of STH stays in the range checked for its NB bytes (R114). -/
theorem State.Inv.storeLiveH {s : State} (h : s.Inv) {a : Nat} (hin : s.inRange a s.nsel.blockBytes) :
    (s.storeWords a s.liveH).Inv := by
  rw [State.storeWords_frame, State.storeWords_bm]
  exact h.writeBytes (by simpa [Variant.blockBytes] using hin)

/-- A response is no part of what the invariant speaks of. -/
theorem State.Inv.answer {s : State} (h : s.Inv) (v : Word) : (s.answer v).Inv := h

theorem State.Inv.writeT {s : State} (h : s.Inv) (j : TweakIndex) (v : Word) : (s.writeT j v).Inv :=
  h.of_same (by simp) (by simp) (by simp) (by simp) (by simp)

theorem State.Inv.ubiBlocks {s : State} (h : s.Inv) (p cnt : Nat) (add : Byte) : (s.ubiBlocks p cnt add).Inv :=
  h.of_same (by simp) (by simp) (by simp) (by simp) (by simp)

/-! ### The meanings and the invariant -/

/-- Every command keeps the invariant: only RST, a fault and the three stores touch what it speaks of. -/
theorem exec_keeps_inv {i : Instr} {s t : State} (h : s.Inv) (he : exec i s = .next t) : t.Inv := by
  obtain ⟨-, rfl⟩ | ⟨-, rfl⟩ | ⟨-, rfl⟩ | ⟨-, hc⟩ := exec_cases he
  · exact h.clear
  · exact h
  · exact h
  obtain ⟨c, hc, hrec, rfl⟩ | ⟨-, rfl⟩ | ⟨c, n, -, -, rfl⟩ | ⟨k, v, -, -, rfl⟩ | ⟨j, v, -, rfl⟩ | ⟨k, -, -, rfl⟩ |
    ⟨j, -, rfl⟩ | ⟨a, b, -, hin, rfl⟩ | ⟨a, v, -, hin, rfl⟩ | ⟨a, -, -, rfl⟩ | ⟨a, -, -, rfl⟩ | ⟨a, -, hin, rfl⟩ |
    ⟨p, cnt, add, -, -, -, rfl⟩ := hc
  · exact h.raise hc hrec
  · exact h.answer 0
  · exact State.Inv.answer (s := s.setVariant n) h 0
  · exact State.Inv.answer (s := s.writeH k v) h 0
  · exact (h.writeT j v).answer 0
  · exact h.answer _
  · exact h.answer _
  · exact (h.memWrite hin _).answer 0
  · exact (h.memWrite hin v).answer 0
  · exact h.answer _
  · exact h.answer _
  · exact (h.storeLiveH hin).answer 0
  · exact (h.ubiBlocks _ cnt add).answer 0

/-- A rejected word keeps the invariant: ILLEGAL_CMD can be recorded with every opcode byte (R211). -/
theorem illegalCommand_keeps_inv {w : Command} {s t : State} (h : s.Inv) (hi : illegalCommand w s = .next t) :
    t.Inv := by
  obtain ⟨-, rfl⟩ | ⟨-, rfl⟩ := unlessFaulted_next hi
  · exact h
  · exact h.raise (by decide) rfl

/-! ### The one response to a command -/

/-- The opcode bytes of the commands whose answer carries data: RDH, RDT, RDST, RDB and RDW (R72). -/
def AnswersData (o : BitVec 8) : Prop := o = 0x0B ∨ o = 0x0C ∨ o = 0x02 ∨ o = 0x12 ∨ o = 0x13

/-- From `s` to `t` a command with opcode byte `o` was answered as R72 says: by one response, which with ERR = 1 has
DATA = 0 and comes with a change of STATUS alone (R10), and with ERR = 0 has DATA = 0 unless the command reads. -/
def AnsweredOnce (o : BitVec 8) (s t : State) : Prop :=
  ∃ r : Response, t.responses = r :: s.responses ∧ t.pending = s.pending ∧
    (r.err = true → r.data = 0 ∧
      t = { s with responses := t.responses, fault := t.fault, cause := t.cause, fop := t.fop }) ∧
    (r.err = false → r.data ≠ 0 → AnswersData o)

theorem answeredOnce_raise (o : BitVec 8) (s : State) (c : Cause) (fop : BitVec 8) :
    AnsweredOnce o s (s.raise c fop) :=
  ⟨⟨true, 0⟩, rfl, rfl, fun _ => ⟨rfl, rfl⟩, nofun⟩

theorem answeredOnce_refuse (o : BitVec 8) (s : State) : AnsweredOnce o s s.refuse :=
  ⟨⟨true, 0⟩, rfl, rfl, fun _ => ⟨rfl, rfl⟩, nofun⟩

/-- A command that has written `u`, the port apart, and answers 0. -/
theorem answeredOnce_answer_zero {o : BitVec 8} {s u : State} (hresponses : u.responses = s.responses)
    (hpending : u.pending = s.pending) : AnsweredOnce o s (u.answer 0) :=
  ⟨⟨false, 0⟩, by simp [hresponses], hpending, nofun, fun _ hne => absurd rfl hne⟩

/-- A command that reads. -/
theorem answeredOnce_answer_data {o : BitVec 8} (ho : AnswersData o) (s : State) (v : Word) :
    AnsweredOnce o s (s.answer v) :=
  ⟨⟨false, v⟩, rfl, rfl, nofun, fun _ _ => ho⟩

theorem exec_answeredOnce {i : Instr} {s t : State} (he : exec i s = .next t) :
    AnsweredOnce i.opcode.byte s t := by
  obtain ⟨rfl, rfl⟩ | ⟨rfl, rfl⟩ | ⟨-, rfl⟩ | ⟨-, hc⟩ := exec_cases he
  · exact answeredOnce_answer_zero rfl rfl
  · exact answeredOnce_answer_data (.inr (.inr (.inl rfl))) _ _
  · exact answeredOnce_refuse _ _
  obtain ⟨c, -, -, rfl⟩ | ⟨-, rfl⟩ | ⟨c, n, -, -, rfl⟩ | ⟨k, v, -, -, rfl⟩ | ⟨j, v, -, rfl⟩ | ⟨k, rfl, -, rfl⟩ |
    ⟨j, rfl, rfl⟩ | ⟨a, b, -, -, rfl⟩ | ⟨a, v, -, -, rfl⟩ | ⟨a, rfl, -, rfl⟩ | ⟨a, rfl, -, rfl⟩ | ⟨a, -, -, rfl⟩ |
    ⟨p, cnt, add, -, -, -, rfl⟩ := hc
  · exact answeredOnce_raise _ _ _ _
  · exact answeredOnce_answer_zero rfl rfl
  · exact answeredOnce_answer_zero rfl rfl
  · exact answeredOnce_answer_zero rfl rfl
  · exact answeredOnce_answer_zero (by simp) (by simp)
  · exact answeredOnce_answer_data (.inl rfl) _ _
  · exact answeredOnce_answer_data (.inr (.inl rfl)) _ _
  · exact answeredOnce_answer_zero rfl rfl
  · exact answeredOnce_answer_zero rfl rfl
  · exact answeredOnce_answer_data (.inr (.inr (.inr (.inl rfl)))) _ _
  · exact answeredOnce_answer_data (.inr (.inr (.inr (.inr rfl)))) _ _
  · exact answeredOnce_answer_zero (by simp) (by simp)
  · exact answeredOnce_answer_zero (by simp) (by simp)

theorem illegalCommand_answeredOnce {w : Command} {s t : State} (hi : illegalCommand w s = .next t) :
    AnsweredOnce (opField w) s t := by
  obtain ⟨-, rfl⟩ | ⟨-, rfl⟩ := unlessFaulted_next hi
  · exact answeredOnce_refuse _ _
  · exact answeredOnce_raise _ _ _ _

/-- A word that decodes has the opcode byte of its command. -/
theorem opField_of_decode {w : Command} {i : Instr} (hd : decode w = .ok i) : opField w = i.opcode.byte := by
  obtain ⟨o, ho, -, rfl⟩ := decode_eq_ok.mp hd
  rw [ho, readOperands_opcode]

/-- A command at the port is answered once, from the state in which it has been taken from the port. -/
theorem step_answeredOnce {s t : State} {w : Command} {rest : List HostInput} (h : s.Presents w rest)
    (hstep : step s = .next t) : AnsweredOnce (opField w) (s.consume rest) t := by
  rw [step_command h] at hstep
  cases hd : decode w with
  | ok i =>
    rw [hd] at hstep
    rw [opField_of_decode hd]
    exact exec_answeredOnce hstep
  | error e =>
    rw [hd] at hstep
    exact illegalCommand_answeredOnce hstep

/-! ### Every step answers a next state -/

/-- No command stops the engine: a fault of the engine is a next state too (R218). -/
theorem exec_next (i : Instr) (s : State) : ∃ t, exec i s = .next t := by
  cases i <;> exact ⟨_, rfl⟩

/-- Any word at the port, a command or not, is carried out, faulted or refused: each is a next state (R76). -/
theorem step_presents_next {s : State} {w : Command} {rest : List HostInput} (h : s.Presents w rest) :
    ∃ t, step s = .next t := by
  rw [step_command h]
  cases decode w with
  | ok i => exact exec_next i _
  | error e => exact ⟨_, rfl⟩

/-! ### Rotation (R8) -/

theorem rotl64_toNat (x : Word) {r : Nat} (h : r ≤ 63) :
    (rotl64 x r).toNat = x.toNat * 2 ^ r % 2 ^ 64 + x.toNat / 2 ^ (64 - r) := by
  have hpow : 2 ^ 64 = 2 ^ r * 2 ^ (64 - r) := by rw [← Nat.pow_add]; congr 1; omega
  have hlow : x.toNat / 2 ^ (64 - r) < 2 ^ r := Nat.div_lt_of_lt_mul (by rw [mul_comm, ← hpow]; exact x.isLt)
  have hhigh : x.toNat * 2 ^ r % 2 ^ 64 = 2 ^ r * (x.toNat % 2 ^ (64 - r)) := by
    rw [hpow, mul_comm, Nat.mul_mod_mul_left]
  rw [rotl64, BitVec.toNat_rotateLeft, Nat.mod_eq_of_lt (show r < 64 by omega), Nat.shiftLeft_eq,
    Nat.shiftRight_eq_div_pow, hhigh, Nat.two_pow_add_eq_or_of_lt hlow]

/-- A bit that does not pass bit 63 moves up by `r`; one that does comes in again at the low end. -/
theorem rotl64_getLsbD (x : Word) {r i : Nat} (hr : r ≤ 63) (hi : i < 64) :
    (rotl64 x r).getLsbD ((i + r) % 64) = x.getLsbD i := by
  have hmod : r % 64 = r := Nat.mod_eq_of_lt (by omega)
  rw [rotl64, BitVec.getLsbD_rotateLeft, hmod]
  by_cases hc : i + r < 64
  · have hpos : (i + r) % 64 = i + r := Nat.mod_eq_of_lt hc
    simp [hpos, hc]
  · have hpos : (i + r) % 64 = i + r - 64 := by omega
    simp [hpos, show i + r - 64 < r by omega, show 64 - r + (i + r - 64) = i by omega]

/-! ### The obligations -/

/-- Settles O49, by the cases of one step: each state operation a step is made of keeps the invariant. -/
theorem everyStepKeepsTheInvariant : Obligations.EveryStepKeepsTheInvariant := by
  intro s t h hstep
  obtain ⟨-, rfl⟩ | ⟨rest, -, rfl⟩ | ⟨w, rest, i, -, -, he⟩ | ⟨w, rest, e, -, -, hi⟩ := step_cases hstep
  · exact h
  · exact State.Inv.hardwareReset (s := s.consume rest) h
  · exact exec_keeps_inv (s := s.consume rest) h he
  · exact illegalCommand_keeps_inv (s := s.consume rest) h hi

/-- Settles O15: the command, decoded or not, is answered once after it has been taken from the port. -/
theorem everyCommandGetsOneResponse : Obligations.EveryCommandGetsOneResponse := by
  intro s t w rest h hstep
  exact step_answeredOnce h hstep

/-- Settles O41: the number formula splits the word at bit 64 - r, and the bits follow the same split. -/
theorem rotationMovesEachBit : Obligations.RotationMovesEachBit := by
  intro x r _ hr
  exact ⟨rotl64_toNat x hr, fun i hi => rotl64_getLsbD x hr hi⟩

/-- Settles O14, by what the host does next at the port. -/
theorem everyStepAnswersANextState : Obligations.EveryStepAnswersANextState := by
  intro s
  match hp : s.pending with
  | [] => exact ⟨_, step_idle hp⟩
  | .hardwareReset :: rest => exact ⟨_, step_hardwareReset hp⟩
  | .command w :: rest => exact step_presents_next hp

end Sys2Proof.Machine

/-! ## The family `10_state.md`: the pieces of state, what writes them, the two resets, the words above W and STATUS -/

namespace Sys2Proof.Machine

/-! ### What a command word writes (R21) -/

/-- A word that decodes to RST is the one word of RST: every other bit of it is reserved (R71, R73). -/
theorem eq_mkCommand_of_decode_rst {w : Command} (hd : decode w = .ok .rst) : w = mkCommand 0x01 0 0 0 := by
  obtain ⟨o, hop, hreserved, hread⟩ := decode_eq_ok.mp hd
  obtain rfl : o = .rst := (readOperands_opcode o w).symm.trans (congrArg Instr.opcode hread)
  obtain ⟨hidx, haddr, hdata⟩ := (reserved_z_iff w).mp hreserved
  rw [← mkCommand_fields w, hop, hidx, haddr, hdata, Opcode.byte]

/-- From `s` to `t` the word `w` wrote only what the "written by" column of R21 names for it: a piece of state is as it
was, or `w` is of a command named for that piece. -/
structure WrittenBy (w : Command) (s t : State) : Prop where
  h : t.h = s.h ∨ opField w = 0x09 ∨ opField w = 0x20 ∨ opField w = 0x01
  tweak : (t.t0 = s.t0 ∧ t.t1 = s.t1) ∨ opField w = 0x0A ∨ opField w = 0x20 ∨ opField w = 0x01
  nsel : t.nsel = s.nsel ∨ opField w = 0x08 ∨ opField w = 0x01
  bm : t.bm = s.bm ∨ opField w = 0x10 ∨ opField w = 0x11 ∨ opField w = 0x14
  status : (t.fault = s.fault ∧ t.cause = s.cause ∧ t.fop = s.fop) ∨
    (s.fault = false ∧ t.fault = true ∧ t.responses = { err := true, data := 0 } :: s.responses) ∨
    w = mkCommand 0x01 0 0 0
  config : t.config = s.config
  bmEpoch : t.bmEpoch = s.bmEpoch

theorem writtenBy_respond (w : Command) (s : State) (err : Bool) (v : Word) : WrittenBy w s (s.respond err v) :=
  ⟨.inl rfl, .inl ⟨rfl, rfl⟩, .inl rfl, .inl rfl, .inl ⟨rfl, rfl, rfl⟩, rfl, rfl⟩

theorem writtenBy_raise (w : Command) {s : State} (hf : s.fault = false) (c : Cause) (o : BitVec 8) :
    WrittenBy w s (s.raise c o) :=
  ⟨.inl rfl, .inl ⟨rfl, rfl⟩, .inl rfl, .inl rfl, .inr (.inl ⟨hf, rfl, rfl⟩), rfl, rfl⟩

/-- The three stores write block memory and nothing else that R21 lists. -/
theorem writtenBy_store {w : Command} (ho : opField w = 0x10 ∨ opField w = 0x11 ∨ opField w = 0x14) (s : State)
    (m : Memory) : WrittenBy w s (State.answer { s with bm := m } 0) :=
  ⟨.inl rfl, .inl ⟨rfl, rfl⟩, .inl rfl, .inr ho, .inl ⟨rfl, rfl, rfl⟩, rfl, rfl⟩

/-- Each command writes its own pieces: by the cases of what a meaning can do. -/
theorem exec_writtenBy {w : Command} {i : Instr} (hd : decode w = .ok i) {s t : State} (he : exec i s = .next t) :
    WrittenBy w s t := by
  have ho := opField_of_decode hd
  obtain ⟨rfl, rfl⟩ | ⟨-, rfl⟩ | ⟨-, rfl⟩ | ⟨hf, hc⟩ := exec_cases he
  · exact ⟨.inr (.inr (.inr ho)), .inr (.inr (.inr ho)), .inr (.inr ho), .inl rfl,
      .inr (.inr (eq_mkCommand_of_decode_rst hd)), rfl, rfl⟩
  · exact writtenBy_respond w s _ _
  · exact writtenBy_respond w s _ _
  obtain ⟨c, -, -, rfl⟩ | ⟨-, rfl⟩ | ⟨c, n, rfl, -, rfl⟩ | ⟨k, v, rfl, -, rfl⟩ | ⟨j, v, rfl, rfl⟩ | ⟨k, -, -, rfl⟩ |
    ⟨j, -, rfl⟩ | ⟨a, b, rfl, -, rfl⟩ | ⟨a, v, rfl, -, rfl⟩ | ⟨a, -, -, rfl⟩ | ⟨a, -, -, rfl⟩ | ⟨a, rfl, -, rfl⟩ |
    ⟨p, cnt, add, rfl, -, -, rfl⟩ := hc
  · exact writtenBy_raise w hf _ _
  · exact writtenBy_respond w s _ _
  · exact ⟨.inl rfl, .inl ⟨rfl, rfl⟩, .inr (.inl ho), .inl rfl, .inl ⟨rfl, rfl, rfl⟩, rfl, rfl⟩
  · exact ⟨.inr (.inl ho), .inl ⟨rfl, rfl⟩, .inl rfl, .inl rfl, .inl ⟨rfl, rfl, rfl⟩, rfl, rfl⟩
  · exact ⟨.inl (by simp), .inr (.inl ho), .inl (by simp), .inl (by simp), .inl (by simp), by simp, by simp⟩
  · exact writtenBy_respond w s _ _
  · exact writtenBy_respond w s _ _
  · exact writtenBy_store (.inl ho) s _
  · exact writtenBy_store (.inr (.inl ho)) s _
  · exact writtenBy_respond w s _ _
  · exact writtenBy_respond w s _ _
  · rw [State.storeWords_frame]
    exact writtenBy_store (.inr (.inr ho)) s _
  · rw [State.ubiBlocks_frame]
    exact ⟨.inr (.inr (.inl ho)), .inr (.inr (.inl ho)), .inl rfl, .inl rfl, .inl ⟨rfl, rfl, rfl⟩, rfl, rfl⟩

theorem illegalCommand_writtenBy {w : Command} {s t : State} (hi : illegalCommand w s = .next t) :
    WrittenBy w s t := by
  obtain ⟨-, rfl⟩ | ⟨hf, rfl⟩ := unlessFaulted_next hi
  · exact writtenBy_respond w s _ _
  · exact writtenBy_raise w hf _ _

/-- A step on a command word writes, after the word is taken from the port, only what R21 names for it. -/
theorem step_writtenBy {s t : State} {w : Command} {rest : List HostInput} (h : s.Presents w rest)
    (hstep : step s = .next t) : WrittenBy w (s.consume rest) t := by
  rw [step_command h] at hstep
  cases hd : decode w with
  | ok i =>
    rw [hd] at hstep
    exact exec_writtenBy hd hstep
  | error e =>
    rw [hd] at hstep
    exact illegalCommand_writtenBy hstep

/-! ### Commands that reach a live word, and runs of them -/

theorem exec_setn_selects {s : State} (h : s.Healthy) {c : Nat} {n : Variant} (hc : Variant.ofCode c = some n) :
    exec (.setn c) s = .next ((s.setVariant n).answer 0) := by
  rw [exec_setn_healthy h, hc]

theorem exec_ldh_live {s : State} (h : s.Healthy) {i : Nat} (hi : i < s.nsel.words) (v : Word) :
    exec (.ldh i v) s = .next ((s.writeH i v).answer 0) := by
  rw [exec_ldh_healthy h, if_neg (Nat.not_le.mpr hi)]

theorem exec_rdh_live {s : State} (h : s.Healthy) {i : Nat} (hi : i < s.nsel.words) :
    exec (.rdh i) s = .next (s.answer (s.readH i)) := by
  rw [exec_rdh_healthy h, if_neg (Nat.not_le.mpr hi)]

theorem exec_ldh_hidden {s : State} (h : s.Healthy) {i : Nat} (hi : s.nsel.words ≤ i) (v : Word) :
    exec (.ldh i v) s = .next (s.raise .badIndex Opcode.ldh.byte) := by
  rw [exec_ldh_healthy h, if_pos hi]

theorem exec_rdh_hidden {s : State} (h : s.Healthy) {i : Nat} (hi : s.nsel.words ≤ i) :
    exec (.rdh i) s = .next (s.raise .badIndex Opcode.rdh.byte) := by
  rw [exec_rdh_healthy h, if_pos hi]

/-- A run goes on from the state that its first command leaves. -/
theorem runCommands_cons {i : Instr} {is : List Instr} {s t : State} (h : exec i s = .next t) :
    runCommands (i :: is) s = runCommands is t := by
  rw [runCommands, h]

/-! ### Engines that differ in the chaining words above W only (R22) -/

/-- `s'` is `s` but for chaining words, and those from 0 to `w - 1` are the same too. -/
structure AgreesBelow (w : Nat) (s s' : State) : Prop where
  frame : s' = { s with h := s'.h }
  readH : ∀ i < w, s'.readH i = s.readH i

section
variable {w : Nat} {s s' : State}

/-! What two such engines have in common. -/

theorem AgreesBelow.nsel (h : AgreesBelow w s s') : s'.nsel = s.nsel := by rw [h.frame]

theorem AgreesBelow.fault (h : AgreesBelow w s s') : s'.fault = s.fault := by rw [h.frame]

theorem AgreesBelow.pending (h : AgreesBelow w s s') : s'.pending = s.pending := by rw [h.frame]

theorem AgreesBelow.status (h : AgreesBelow w s s') : s'.status = s.status := by rw [h.frame]; rfl

theorem AgreesBelow.readT (h : AgreesBelow w s s') (j : TweakIndex) : s'.readT j = s.readT j := by
  rw [h.frame]; cases j <;> rfl

theorem AgreesBelow.memRead (h : AgreesBelow w s s') (a n : Nat) : s'.memRead a n = s.memRead a n := by
  rw [h.frame]; rfl

theorem AgreesBelow.inRange (h : AgreesBelow w s s') (a n : Nat) : s'.inRange a n ↔ s.inRange a n := by
  rw [h.frame]

theorem AgreesBelow.liveH (h : AgreesBelow s.nsel.words s s') : s'.liveH = s.liveH :=
  State.liveH_congr h.nsel h.readH

/-! The state operations, done to both. An operation that does not touch H keeps the words as they are. -/

theorem AgreesBelow.consume (h : AgreesBelow w s s') (rest : List HostInput) :
    AgreesBelow w (s.consume rest) (s'.consume rest) :=
  ⟨by rw [h.frame]; rfl, h.readH⟩

theorem AgreesBelow.respond (h : AgreesBelow w s s') (err : Bool) (v : Word) :
    AgreesBelow w (s.respond err v) (s'.respond err v) :=
  ⟨by rw [h.frame]; rfl, h.readH⟩

theorem AgreesBelow.answer (h : AgreesBelow w s s') (v : Word) : AgreesBelow w (s.answer v) (s'.answer v) :=
  h.respond false v

theorem AgreesBelow.answerSame (h : AgreesBelow w s s') {v v' : Word} (hv : v' = v) :
    AgreesBelow w (s.answer v) (s'.answer v') :=
  hv ▸ h.answer v'

theorem AgreesBelow.raise (h : AgreesBelow w s s') (c : Cause) (o : BitVec 8) :
    AgreesBelow w (s.raise c o) (s'.raise c o) :=
  ⟨by rw [h.frame]; rfl, h.readH⟩

theorem AgreesBelow.clear (h : AgreesBelow w s s') : AgreesBelow w s.clear s'.clear :=
  ⟨by rw [h.frame]; rfl, fun i _ => by simp⟩

theorem AgreesBelow.hardwareReset (h : AgreesBelow w s s') : AgreesBelow w s.hardwareReset s'.hardwareReset :=
  ⟨by rw [h.frame]; rfl, h.clear.readH⟩

theorem AgreesBelow.setVariant (h : AgreesBelow w s s') (n : Variant) :
    AgreesBelow w (s.setVariant n) (s'.setVariant n) :=
  ⟨by rw [h.frame]; rfl, h.readH⟩

theorem AgreesBelow.writeT (h : AgreesBelow w s s') (j : TweakIndex) (v : Word) :
    AgreesBelow w (s.writeT j v) (s'.writeT j v) := by
  cases j <;> exact ⟨by rw [h.frame]; rfl, h.readH⟩

theorem AgreesBelow.memWrite (h : AgreesBelow w s s') (a n : Nat) (v : Word) :
    AgreesBelow w (s.memWrite a n v) (s'.memWrite a n v) :=
  ⟨by rw [h.frame]; rfl, h.readH⟩

theorem AgreesBelow.storeWords (h : AgreesBelow w s s') (a : Nat) (ws : List Word) :
    AgreesBelow w (s.storeWords a ws) (s'.storeWords a ws) := by
  induction ws generalizing s s' a with
  | nil => exact h
  | cons x ws ih => exact ih (h.memWrite a 8 x) (a + 8)

theorem AgreesBelow.writeH (h : AgreesBelow w s s') {k : Nat} (hk : k < 16) (v : Word) :
    AgreesBelow w (s.writeH k v) (s'.writeH k v) := by
  refine ⟨by rw [h.frame]; rfl, fun i hi => ?_⟩
  by_cases hik : i = k
  · rw [hik, State.readH_writeH_same _ hk, State.readH_writeH_same _ hk]
  · rw [State.readH_writeH_other _ hik, State.readH_writeH_other _ hik, h.readH i hi]

/-- The live words after a block are made of the live words before it, T and the block: no other word is read. -/
theorem AgreesBelow.ubiBlock (h : AgreesBelow w s s') (hw : s.nsel.words = w) (p : Nat) (add : Byte) :
    AgreesBelow w (s.ubiBlock p add) (s'.ubiBlock p add) := by
  subst hw
  refine ⟨by rw [h.frame]; rfl, fun i hi => ?_⟩
  have ht0 : s'.t0 = s.t0 := h.readT .t0
  have ht1 : s'.t1 = s.t1 := h.readT .t1
  have hblock : s'.blockWords p = s.blockWords p := by simp only [State.blockWords, h.nsel, h.memRead]
  rw [State.ubiBlock_readH _ _ _ (h.nsel ▸ hi), State.ubiBlock_readH _ _ _ hi, h.nsel, h.liveH, ht0, ht1, hblock]

theorem AgreesBelow.ubiBlocks (h : AgreesBelow s.nsel.words s s') (p cnt : Nat) (add : Byte) :
    AgreesBelow s.nsel.words (s.ubiBlocks p cnt add) (s'.ubiBlocks p cnt add) := by
  induction cnt with
  | zero => exact h
  | succ n ih =>
    rw [State.ubiBlocks_succ, State.ubiBlocks_succ, h.nsel]
    exact ih.ubiBlock (by rw [State.ubiBlocks_nsel]) _ add

end

/-- Both branches of a test that comes out the same in both engines. -/
theorem AgreesBelow.ite {w : Nat} {p q : Prop} [Decidable p] [Decidable q] {a a' b b' : State} (hpq : q ↔ p)
    (ha : p → AgreesBelow w a a') (hb : ¬p → AgreesBelow w b b') :
    AgreesBelow w (if p then a else b) (if q then a' else b') := by
  by_cases hp : p
  · rw [if_pos hp, if_pos (hpq.mpr hp)]
    exact ha hp
  · rw [if_neg hp, if_neg (hpq.not.mpr hp)]
    exact hb hp

/-- Both engines go on, to states that agree below `w`. -/
def NextAgree (w : Nat) (o o' : Host.Outcome State Fault Refusal) : Prop :=
  ∃ t t', o = .next t ∧ o' = .next t' ∧ AgreesBelow w t t'

section
variable {w : Nat} {s s' : State}

theorem AgreesBelow.unlessFaulted {u u' : State} (h : AgreesBelow w s s') (hu : AgreesBelow w u u') :
    NextAgree w (unlessFaulted s u) (unlessFaulted s' u') :=
  ⟨_, _, rfl, rfl, .ite (by rw [h.fault]) (fun _ => h.respond true 0) (fun _ => hu)⟩

/-- A meaning tests and answers with nothing that the words above W enter, and writes the live words from such alone. -/
theorem AgreesBelow.exec (h : AgreesBelow s.nsel.words s s') (i : Instr) :
    NextAgree s.nsel.words (exec i s) (exec i s') := by
  have hlive (k : Nat) : s'.nsel.words ≤ k ↔ s.nsel.words ≤ k := by rw [h.nsel]
  cases i with
  | nop => exact h.unlessFaulted (h.answer 0)
  | rst => exact ⟨_, _, rfl, rfl, h.clear.answer 0⟩
  | rdst => exact ⟨_, _, rfl, rfl, h.answerSame h.status⟩
  | setn c =>
    refine h.unlessFaulted ?_
    cases Variant.ofCode c with
    | none => exact h.raise _ _
    | some n => exact (h.setVariant n).answer 0
  | ldh k v =>
    refine h.unlessFaulted (.ite (hlive k) (fun _ => h.raise _ _) fun hk => (h.writeH ?_ v).answer 0)
    exact (Nat.not_le.mp hk).trans_le s.nsel.words_le
  | ldt j v => exact h.unlessFaulted ((h.writeT j v).answer 0)
  | rdh k =>
    exact h.unlessFaulted (.ite (hlive k) (fun _ => h.raise _ _) fun hk => h.answerSame (h.readH k (Nat.not_le.mp hk)))
  | rdt j => exact h.unlessFaulted (h.answerSame (h.readT j))
  | wrb a b => exact h.unlessFaulted (.ite (h.inRange _ _) (fun _ => (h.memWrite _ _ _).answer 0) fun _ => h.raise _ _)
  | wrw a v => exact h.unlessFaulted (.ite (h.inRange _ _) (fun _ => (h.memWrite _ _ _).answer 0) fun _ => h.raise _ _)
  | rdb a =>
    exact h.unlessFaulted (.ite (h.inRange _ _) (fun _ => h.answerSame (h.memRead _ _)) fun _ => h.raise _ _)
  | rdw a =>
    exact h.unlessFaulted (.ite (h.inRange _ _) (fun _ => h.answerSame (h.memRead _ _)) fun _ => h.raise _ _)
  | sth a =>
    refine h.unlessFaulted (.ite (by rw [h.nsel]; exact h.inRange _ _) (fun _ => ?_) fun _ => h.raise _ _)
    rw [h.liveH]
    exact (h.storeWords _ _).answer 0
  | proc p cnt add =>
    refine h.unlessFaulted ?_
    refine .ite Iff.rfl (fun _ => h.raise _ _) fun _ => ?_
    exact .ite (by rw [h.nsel]; exact h.inRange _ _) (fun _ => (h.ubiBlocks _ cnt add).answer 0) fun _ => h.raise _ _

theorem AgreesBelow.step (h : AgreesBelow s.nsel.words s s') :
    NextAgree s.nsel.words (step s) (step s') := by
  match hp : s.pending with
  | [] =>
    rw [step_idle hp, step_idle (h.pending.trans hp)]
    exact ⟨_, _, rfl, rfl, h⟩
  | .hardwareReset :: rest =>
    rw [step_hardwareReset hp, step_hardwareReset (h.pending.trans hp)]
    exact ⟨_, _, rfl, rfl, (h.consume rest).hardwareReset⟩
  | .command w :: rest =>
    rw [step_command hp, step_command (h.pending.trans hp)]
    cases decode w with
    | ok i => exact AgreesBelow.exec (s := s.consume rest) (h.consume rest) i
    | error e => exact (h.consume rest).unlessFaulted ((h.consume rest).raise _ _)

end

/-! ### STATUS as a number -/

/-- A field of a word, from the number that stands there. -/
theorem extractLsb'_eq_of_toNat {x : Word} {k n : Nat} {f : BitVec n} (h : x.toNat / 2 ^ k % 2 ^ n = f.toNat) :
    x.extractLsb' k n = f := by
  apply BitVec.eq_of_toNat_eq
  rw [BitVec.extractLsb'_toNat, Nat.shiftRight_eq_div_pow, h]

/-- The fields of STATUS stand apart, each at its place (R27). -/
theorem State.status_toNat (s : State) :
    s.status.toNat = s.fop.toNat * 2 ^ 16 + s.nsel.code.toNat * 2 ^ 8 + s.cause.code.toNat * 2 ^ 4 + s.fault.toNat := by
  have hnsel := s.nsel.code.isLt
  have hcause := s.cause.code.isLt
  have hfault : s.fault.toNat < 2 ^ 1 := s.fault.toNat_lt
  have hzero (n : Nat) : (0 : BitVec n).toNat = 0 := rfl
  simp only [State.status, BitVec.toNat_append, BitVec.toNat_ofBool, hzero, Nat.zero_shiftLeft, Nat.zero_or, Nat.or_zero]
  rw [← Nat.shiftLeft_add_eq_or_of_lt hfault, ← Nat.shiftLeft_add_eq_or_of_lt hcause,
    ← Nat.shiftLeft_add_eq_or_of_lt hnsel]
  simp only [Nat.shiftLeft_eq]
  omega

/-! ### The obligations -/

/-- Settles O51, from what a step on a command word writes. -/
theorem onlyTheirCommandsWriteEachState : Obligations.OnlyTheirCommandsWriteEachState := by
  intro s t w rest h hstep
  obtain ⟨hh, htweak, hnsel, hbm, hstatus, hconfig, hepoch⟩ := step_writtenBy h hstep
  refine ⟨hh.resolve_left, fun hne => htweak.resolve_left ?_, hnsel.resolve_left, ?_, fun hne => hstatus.resolve_left ?_,
    hconfig, hepoch⟩
  · rintro ⟨h0, h1⟩
    exact hne.elim (· h0) (· h1)
  · rintro ⟨a, hne⟩
    exact hbm.resolve_left fun heq => hne (State.readByte_congr (congrArg (·.lookup a) heq) hepoch)
  · rintro ⟨hfault, hcause, hfop⟩
    exact hne.elim (· hfault) (·.elim (· hcause) (· hfop))

/-- Settles O52: BAD_INDEX above W, SETN as an update of CFG.NSEL, and the spec's own sequence run command by command. -/
theorem hiddenChainingWordsAreKept : Obligations.HiddenChainingWordsAreKept := by
  refine ⟨fun s i h hi _ => ⟨exec_ldh_hidden h hi, exec_rdh_hidden h hi⟩, fun s t c h hc he => ?_, fun s v h => ?_⟩
  · obtain ⟨n, hn⟩ := Variant.ofCode_lt hc
    rw [exec_setn_selects h hn] at he
    cases he
    rfl
  · let s1 := (s.setVariant .n1024).answer 0
    let s2 := (s1.writeH 15 v).answer 0
    let s3 := (s2.setVariant .n256).answer 0
    let s4 := (s3.setVariant .n1024).answer 0
    have hread : s4.readH 15 = v := State.readH_writeH_same s1 (by decide) v
    have hrun : runCommands [.setn 2, .ldh 15 v, .setn 0, .setn 2, .rdh 15] s = .next (s4.answer v) := by
      rw [runCommands_cons (exec_setn_selects h rfl),
        runCommands_cons (exec_ldh_live (s := s1) h (show 15 < 16 by decide) v),
        runCommands_cons (exec_setn_selects (s := s2) h rfl),
        runCommands_cons (exec_setn_selects (s := s3) h rfl),
        runCommands_cons (exec_rdh_live (s := s4) h (show 15 < 16 by decide)), hread]
      rfl
    exact ⟨_, hrun, rfl⟩

/-- Settles O53: engines that agree below W still do after a step. -/
theorem hiddenChainingWordsDoNotLeak : Obligations.HiddenChainingWordsDoNotLeak := by
  intro s s' t t' hframe hread hs hs'
  obtain ⟨u, u', hu, hu', hagree⟩ := AgreesBelow.step ⟨hframe, hread⟩
  cases hs.symm.trans hu
  cases hs'.symm.trans hu'
  exact ⟨hagree.frame, hagree.readH⟩

/-- Settles O9: the word decodes, so the step is the meaning of its command once it is taken from the port. -/
theorem stepRunsTheDecodedCommand : Obligations.StepRunsTheDecodedCommand := by
  intro s w rest i h hd
  rw [step_command h, hd]
  rfl

/-- Settles O12: RST writes the reset values, and the state after hardware reset has them already. -/
theorem bothResetsLeaveTheResetValues : Obligations.BothResetsLeaveTheResetValues := by
  refine ⟨⟨State.readH_clear State.reset, rfl, rfl, rfl, rfl, rfl, rfl, rfl, fun _ => rfl⟩, fun s => ?_⟩
  exact ⟨_, exec_rst s, State.readH_clear s, rfl, rfl, rfl, rfl, rfl, rfl, rfl, fun _ => rfl⟩

/-- Settles O13: hardware reset at the port writes what RST does and drops the written bytes of block memory. -/
theorem hardwareResetAtThePort : Obligations.HardwareResetAtThePort := by
  intro s rest h
  exact ⟨_, step_hardwareReset h, State.readH_clear s, rfl, rfl, rfl, rfl, rfl, rfl, fun _ => rfl, rfl, rfl, rfl⟩

/-- Settles O50: the default `BM_BYTES` is in range, no byte is a written one, and STATUS is clear. -/
theorem resetMeetsTheInvariant : Obligations.ResetMeetsTheInvariant :=
  ⟨by decide, List.Pairwise.nil, nofun, by decide, rfl⟩

/-- Settles O57, by the number that STATUS is. -/
theorem statusFieldsHaveTheirBits : Obligations.StatusFieldsHaveTheirBits := by
  intro s
  have hfop := s.fop.isLt
  have hnsel := s.nsel.code.isLt
  have hcause := s.cause.code.isLt
  have hfault := s.fault.toNat_lt
  have hnum := s.status_toNat
  have hbit : s.status.getLsbD 0 = s.fault := by
    have hmod : s.status.toNat % 2 = s.fault.toNat := by omega
    rw [BitVec.getLsbD, Nat.testBit_zero, hmod]
    cases s.fault <;> rfl
  exact ⟨hbit, rfl, extractLsb'_eq_of_toNat (show _ = 0 by omega), extractLsb'_eq_of_toNat (by omega),
    extractLsb'_eq_of_toNat (by omega), extractLsb'_eq_of_toNat (show _ = 0 by omega),
    extractLsb'_eq_of_toNat (by omega), extractLsb'_eq_of_toNat (show _ = 0 by omega)⟩

end Sys2Proof.Machine

/-! ## The family `20_memory.md`: block memory as bytes, and the accesses that are in range -/

namespace Sys2Proof.Machine

/-! ### The number that bytes make -/

/-- The little-endian number of a run of bytes is the sum of R52. -/
theorem leNat_map_range (f : Nat → Byte) (n : Nat) :
    leNat ((List.range n).map f) = ((List.range n).map fun k => (f k).toNat * 2 ^ (8 * k)).sum := by
  induction n generalizing f with
  | zero => rfl
  | succ n ih =>
    have hpow (k : Nat) : 2 ^ (8 * (k + 1)) = 256 * 2 ^ (8 * k) := by rw [Nat.mul_succ, Nat.pow_add]; omega
    simp only [List.range_succ_eq_map, List.map_cons, List.map_map, Function.comp_def, leNat, List.sum_cons,
      ih fun k => f (k + 1), Nat.succ_eq_add_one, hpow, Nat.mul_left_comm _ 256, List.sum_map_mul_left]
    omega

/-! ### Accesses in range, in a healthy engine -/

section
variable {s : State} (h : s.Healthy)
include h

theorem exec_wrb_inRange {a : Addr} (hin : s.inRange a.toNat 1) (b : Byte) :
    exec (.wrb a b) s = .next ((s.memWrite a.toNat 1 (b.zeroExtend 64)).answer 0) := by
  rw [exec_wrb_healthy h, if_pos hin]

theorem exec_wrw_inRange {a : Addr} (hin : s.inRange a.toNat 8) (v : Word) :
    exec (.wrw a v) s = .next ((s.memWrite a.toNat 8 v).answer 0) := by
  rw [exec_wrw_healthy h, if_pos hin]

theorem exec_rdb_inRange {a : Addr} (hin : s.inRange a.toNat 1) :
    exec (.rdb a) s = .next (s.answer ((s.readByte a.toNat).zeroExtend 64)) := by
  rw [exec_rdb_healthy h, if_pos hin, State.memRead_one]

theorem exec_rdw_inRange {a : Addr} (hin : s.inRange a.toNat 8) :
    exec (.rdw a) s = .next (s.answer (s.memRead a.toNat 8)) := by
  rw [exec_rdw_healthy h, if_pos hin]

theorem exec_sth_inRange {a : Addr} (hin : s.inRange a.toNat s.nsel.blockBytes) :
    exec (.sth a) s = .next ((s.storeWords a.toNat s.liveH).answer 0) := by
  rw [exec_sth_healthy h, if_pos hin]

theorem exec_proc_inRange {p : Addr} {cnt : Nat} (hcnt : cnt ≠ 0) (hin : s.inRange p.toNat (cnt * s.nsel.blockBytes))
    (add : Byte) : exec (.proc p cnt add) s = .next ((s.ubiBlocks p.toNat cnt add).answer 0) := by
  rw [exec_proc_healthy h, if_neg hcnt, if_pos hin]

end

/-! ### A byte at its place -/

theorem State.readByte_memWrite_inside (s : State) (a : Nat) {n k : Nat} (hk : k < n) (v : Word) :
    (s.memWrite a n v).readByte (a + k) = v.extractLsb' (8 * k) 8 := by
  rw [State.readByte_memWrite, if_pos (by omega), Nat.add_sub_cancel_left]

theorem State.readByte_memWrite_outside (s : State) {a n x : Nat} (hx : x < a ∨ a + n ≤ x) (v : Word) :
    (s.memWrite a n v).readByte x = s.readByte x := by
  rw [State.readByte_memWrite, if_neg (by omega)]

/-- The byte that WRB writes is the byte that stands there. -/
theorem State.readByte_memWrite_byte (s : State) (a : Nat) (b : Byte) :
    (s.memWrite a 1 (b.zeroExtend 64)).readByte a = b := by
  refine (State.readByte_memWrite_inside s a Nat.one_pos _).trans ?_
  rw [Nat.mul_zero, ← BitVec.setWidth_eq_extractLsb' (by decide)]
  exact BitVec.setWidth_setWidth_of_le b (by decide)

/-! ### The obligations -/

/-- Settles O29: a read of at most eight bytes loses nothing to the width of a word, and its number is that sum. -/
theorem memReadIsTheSumOfItsBytes : Obligations.MemReadIsTheSumOfItsBytes := by
  intro s a n hn
  have hle : n ≤ 8 := by omega
  rw [State.memRead_toNat s a hle, State.readBytes, leNat_map_range]

/-- Settles O30, from the byte read after a write inside its range and outside it. -/
theorem memWriteChangesItsBytesOnly : Obligations.MemWriteChangesItsBytesOnly := by
  intro s a n v _
  exact ⟨fun k hk => State.readByte_memWrite_inside s a hk v, fun x hx => State.readByte_memWrite_outside s hx v⟩

/-- Settles O31: the commands are in range and run, and what they read are the bytes that were written. -/
theorem mixedWidthsSeeTheSameBytes : Obligations.MixedWidthsSeeTheSameBytes := by
  intro s a ak k h hword hk hak
  have hbyte : s.inRange ak.toNat 1 := by show _ ≤ _; omega
  constructor
  · intro b
    let t := (s.memWrite ak.toNat 1 (b.zeroExtend 64)).answer 0
    have hread : (t.memRead a.toNat 8).extractLsb' (8 * k) 8 = b := by
      rw [State.memRead_byte t _ le_rfl hk, ← hak]
      exact s.readByte_memWrite_byte ak.toNat b
    exact ⟨t, _, exec_wrb_inRange h hbyte b, exec_rdw_inRange (s := t) h hword, hread⟩
  · intro v
    let t := (s.memWrite a.toNat 8 v).answer 0
    have hreadWord : t.memRead a.toNat 8 = v := State.memRead_memWrite s a.toNat v
    have hreadByte : t.readByte ak.toNat = v.extractLsb' (8 * k) 8 := by
      rw [hak]
      exact s.readByte_memWrite_inside a.toNat hk v
    refine ⟨t, exec_wrw_inRange h hword v, ?_, ?_⟩
    · rw [exec_rdw_inRange (s := t) h hword, hreadWord]
      rfl
    · rw [exec_rdb_inRange (s := t) h hbyte, hreadByte]
      rfl

/-- Settles O32: each command is carried out wherever its access is in range, and its effect leaves STATUS.FAULT and the
earlier responses alone. -/
theorem accessesInRangeNeedNoAlignment : Obligations.AccessesInRangeNeedNoAlignment := by
  intro s a h
  refine ⟨fun hword => ⟨fun v => ?_, ?_⟩, fun hblock => ?_, fun cnt add hcnt hblocks => ?_⟩
  · exact ⟨_, exec_wrw_inRange h hword v, h, rfl⟩
  · exact ⟨_, _, exec_rdw_inRange h hword, h, rfl⟩
  · exact ⟨_, exec_sth_inRange h hblock, by simpa using h, by simp⟩
  · exact ⟨_, exec_proc_inRange h hcnt hblocks add, by simpa using h, by simp⟩

end Sys2Proof.Machine

/-! ## The family `30_encoding.md`: the round trip between commands and words, illegal words, the opcode table, and the
assembler -/

namespace Sys2Proof

/-! ### Fields narrower than what carries them -/

/-- A value that fits in its low `k` bits is those bits. -/
theorem setWidth_extractLsb'_of_lt {n k : Nat} {x : BitVec n} (h : x.toNat < 2 ^ k) :
    (x.extractLsb' 0 k).setWidth n = x := by
  apply BitVec.eq_of_toNat_eq
  rw [BitVec.toNat_setWidth, BitVec.extractLsb'_toNat, Nat.shiftRight_zero, Nat.mod_eq_of_lt h,
    Nat.mod_eq_of_lt x.isLt]

/-- A number that fits a field of `k` bits is read back from the low bits of the wider field that carries it. -/
theorem toNat_extractLsb'_ofNat {n k v : Nat} (hk : k ≤ n) (h : v < 2 ^ k) :
    ((BitVec.ofNat n v).extractLsb' 0 k).toNat = v := by
  rw [BitVec.extractLsb'_toNat, Nat.shiftRight_zero, BitVec.toNat_ofNat,
    Nat.mod_eq_of_lt (h.trans_le (Nat.pow_le_pow_right Nat.two_pos hk)), Nat.mod_eq_of_lt h]

@[simp] theorem tweakIndexOf_code (j : TweakIndex) : tweakIndexOf j.code = j := by cases j <;> rfl

theorem code_tweakIndexOf {idx : BitVec 8} (h : idx.toNat < 2) : (tweakIndexOf idx).code = idx := by
  obtain h0 | h1 : idx.toNat = 0 ∨ idx.toNat = 1 := by omega
  · obtain rfl : idx = 0 := BitVec.eq_of_toNat_eq h0
    rfl
  · obtain rfl : idx = 1 := BitVec.eq_of_toNat_eq h1
    rfl

/-! ### The round trip -/

/-- The encoder leaves the bits that the format reserves zero (R75). -/
theorem encode_reserved_clear {i : Instr} (h : i.WellFormed) : encode i &&& i.opcode.format.reserved = 0 := by
  cases i with
  | nop => exact Laws.EncodedReserved.nop h
  | rst => exact Laws.EncodedReserved.rst h
  | rdst => exact Laws.EncodedReserved.rdst h
  | setn c => exact Laws.EncodedReserved.setn c h
  | ldh k v => exact Laws.EncodedReserved.ldh k v h
  | ldt j v => exact Laws.EncodedReserved.ldt j v h
  | rdh k => exact Laws.EncodedReserved.rdh k h
  | rdt j => exact Laws.EncodedReserved.rdt j h
  | wrb a b => exact Laws.EncodedReserved.wrb a b h
  | wrw a v => exact Laws.EncodedReserved.wrw a v h
  | rdb a => exact Laws.EncodedReserved.rdb a h
  | rdw a => exact Laws.EncodedReserved.rdw a h
  | sth a => exact Laws.EncodedReserved.sth a h
  | proc p cnt add => exact Laws.EncodedReserved.proc p cnt add h

/-- Each operand is read back from the field it was written to (R78). -/
theorem readOperands_encode {i : Instr} (h : i.WellFormed) : readOperands i.opcode (encode i) = i := by
  simp only [Instr.opcode, readOperands, idxField_encode, addrField_encode, dataField_encode]
  cases i with
  | nop | rst | rdst | wrw | rdb | rdw | sth => rfl
  | ldt j _ | rdt j => simp only [Instr.idxBits, Instr.dataBits, tweakIndexOf_code]
  | setn c => exact congrArg Instr.setn (toNat_extractLsb'_ofNat (by decide) (of_decide_eq_true h))
  | ldh k v => exact congrArg (Instr.ldh · v) (toNat_extractLsb'_ofNat (by decide) (of_decide_eq_true h))
  | rdh k => exact congrArg Instr.rdh (toNat_extractLsb'_ofNat (by decide) (of_decide_eq_true h))
  | wrb a b =>
    have hb : (b.zeroExtend 64).extractLsb' 0 8 = b := by
      rw [← BitVec.setWidth_eq_extractLsb' (by decide)]
      exact BitVec.setWidth_setWidth_of_le b (by decide)
    exact congrArg (Instr.wrb a) hb
  | proc p cnt add =>
    exact congrArg (Instr.proc p · add) (toNat_extractLsb'_ofNat (by decide) (of_decide_eq_true h))

/-- A word without reserved bits is what the encoder makes of the operands read from it: a field is read whole, or the
bits of it that are not read are zero (R71, R75). -/
theorem encode_readOperands {w : Command} {o : Opcode} (hop : opField w = o.byte)
    (hr : w &&& o.format.reserved = 0) : encode (readOperands o w) = w := by
  rw [← mkCommand_fields w, encode, readOperands_opcode, mkCommand_inj, mkCommand_fields]
  refine ⟨hop.symm, ?_⟩
  cases o with
  | nop | rst | rdst =>
    obtain ⟨hidx, haddr, hdata⟩ := (reserved_z_iff w).mp hr
    exact ⟨hidx.symm, haddr.symm, hdata.symm⟩
  | setn =>
    obtain ⟨hidx, haddr, hdata⟩ := (reserved_v_iff w).mp hr
    exact ⟨(BitVec.ofNat_toNat ..).trans (setWidth_extractLsb'_of_lt hidx), haddr.symm, hdata.symm⟩
  | ldh =>
    obtain ⟨hidx, haddr⟩ := (reserved_hw_iff w).mp hr
    exact ⟨(BitVec.ofNat_toNat ..).trans (setWidth_extractLsb'_of_lt hidx), haddr.symm, rfl⟩
  | ldt =>
    obtain ⟨hidx, haddr⟩ := (reserved_tw_iff w).mp hr
    exact ⟨code_tweakIndexOf hidx, haddr.symm, rfl⟩
  | rdh =>
    obtain ⟨hidx, haddr, hdata⟩ := (reserved_hr_iff w).mp hr
    exact ⟨(BitVec.ofNat_toNat ..).trans (setWidth_extractLsb'_of_lt hidx), haddr.symm, hdata.symm⟩
  | rdt =>
    obtain ⟨hidx, haddr, hdata⟩ := (reserved_tr_iff w).mp hr
    exact ⟨code_tweakIndexOf hidx, haddr.symm, hdata.symm⟩
  | wrb =>
    obtain ⟨hidx, hdata⟩ := (reserved_mb_iff w).mp hr
    exact ⟨hidx.symm, rfl, setWidth_extractLsb'_of_lt hdata⟩
  | wrw => exact ⟨((reserved_mw_iff w).mp hr).symm, rfl, rfl⟩
  | rdb | rdw | sth =>
    obtain ⟨hidx, hdata⟩ := (reserved_mr_iff w).mp hr
    exact ⟨hidx.symm, rfl, hdata.symm⟩
  | proc => exact ⟨rfl, rfl, (BitVec.ofNat_toNat ..).trans (setWidth_extractLsb'_of_lt ((reserved_p_iff w).mp hr))⟩

/-! ### The opcode table (R71, R73) -/

/-- The decoder gives a command of `o` exactly for the words with its `op` and none of its reserved bits. -/
theorem decode_opcode_iff {w : Command} {o : Opcode} :
    (∃ i, decode w = .ok i ∧ i.opcode = o) ↔ opField w = o.byte ∧ w &&& o.format.reserved = 0 := by
  constructor
  · rintro ⟨i, hd, rfl⟩
    obtain ⟨o, hop, hr, rfl⟩ := decode_eq_ok.mp hd
    rw [readOperands_opcode]
    exact ⟨hop, hr⟩
  · rintro ⟨hop, hr⟩
    exact ⟨_, decode_eq_ok.mpr ⟨o, hop, hr, rfl⟩, readOperands_opcode o w⟩

theorem Opcode.tableMatch_eq (o : Opcode) : o.tableMatch = mkCommand o.byte 0 0 0 := by cases o <;> decide

/-- A row's mask is `op` whole and the reserved bits of the row's format. -/
theorem Opcode.tableMask_eq (o : Opcode) :
    o.tableMask = mkCommand (BitVec.allOnes 8) (idxField o.format.reserved) (addrField o.format.reserved)
      (dataField o.format.reserved) := by
  cases o <;> decide

theorem matches_row_iff (w : Command) (o : Opcode) :
    w &&& o.tableMask = o.tableMatch ↔ opField w = o.byte ∧ w &&& o.format.reserved = 0 := by
  rw [reserved_clear_iff, o.tableMask_eq, o.tableMatch_eq]
  conv_lhs => rw [← mkCommand_fields w, mkCommand_and, mkCommand_inj, BitVec.and_allOnes]

end Sys2Proof

namespace Sys2Proof.Machine

/-! ### Illegal words (R74, R75) -/

/-- The fourteen values of `op` written in numbers are the bytes of the fourteen commands. -/
theorem mem_legalOps {b : BitVec 8} : b ∈ legalOps ↔ ∃ o : Opcode, b = o.byte := by
  rw [show legalOps = Opcode.all.map Opcode.byte from rfl, List.mem_map]
  constructor
  · rintro ⟨o, -, rfl⟩
    exact ⟨o, rfl⟩
  · rintro ⟨o, rfl⟩
    exact ⟨o, by cases o <;> decide, rfl⟩

theorem ofByte_eq_none_iff {b : BitVec 8} : Opcode.ofByte b = none ↔ b ∉ legalOps := by
  rw [mem_legalOps, Option.eq_none_iff_forall_ne_some, not_exists]
  exact forall_congr' fun o => not_congr Opcode.ofByte_eq_some

/-- The reserved bits read field by field as numbers are the reserved bits of the command's format: each
format bounds its fields. -/
theorem reservedBitSet_iff {w : Command} {o : Opcode} (hop : opField w = o.byte) :
    reservedBitSet w = true ↔ w &&& o.format.reserved ≠ 0 := by
  have zero_iff {n : Nat} (x : BitVec n) : x = 0 ↔ x.toNat = 0 := BitVec.toNat_eq
  simp only [reservedBitSet, hop]
  cases o
  all_goals
    simp only [Opcode.format, ne_eq, reserved_z_iff, reserved_v_iff, reserved_hw_iff, reserved_hr_iff, reserved_tw_iff,
      reserved_tr_iff, reserved_mb_iff, reserved_mw_iff, reserved_mr_iff, reserved_p_iff, zero_iff (idxField w),
      zero_iff (addrField w), zero_iff (dataField w)]
    refine decide_eq_true_iff.trans ?_
    omega

/-- A word that is no command, in a healthy engine: ILLEGAL_CMD with its `op` (R212, R218). -/
theorem step_of_decode_error {s : State} {w : Command} {rest : List HostInput} {e : DecodeError}
    (h : s.Presents w rest) (hs : s.Healthy) (hd : decode w = .error e) :
    step s = .next ((s.consume rest).raise .illegalCmd (opField w)) := by
  rw [step_command h, hd]
  exact illegalCommand_healthy (State.consume_healthy hs rest) w

/-! ### The assembler (R80, R81) -/

@[simp] theorem fits_toNat {n : Nat} (x : BitVec n) : fits n x.toNat = true := decide_eq_true x.isLt

@[simp] theorem tweakOperand_code (j : TweakIndex) : tweakOperand j.code.toNat = some j := by cases j <;> rfl

/-- Reading live words one after another: each is answered in turn, and nothing else happens. -/
theorem runCommands_rdh {s : State} (hs : s.Healthy) {is : List Nat} (his : ∀ i ∈ is, i < s.nsel.words) :
    runCommands (is.map .rdh) s = .next { s with
      responses := (is.map fun i => ({ err := false, data := s.readH i } : Response)).reverse ++ s.responses } := by
  induction is generalizing s with
  | nil => rfl
  | cons i is ih =>
    obtain ⟨hi, his⟩ := List.forall_mem_cons.mp his
    rw [List.map_cons, runCommands_cons (exec_rdh_live hs hi), ih (s := s.answer (s.readH i)) hs his, List.map_cons,
      List.reverse_cons, List.append_assoc]
    rfl

/-! ### The obligations -/

/-- Settles O1: the encoder writes the command's `op`, no reserved bit, and operands that are read back. -/
theorem encodedCommandsDecodeToThemselves : Obligations.EncodedCommandsDecodeToThemselves := by
  intro i h
  exact decode_eq_ok.mpr ⟨i.opcode, opField_encode i, encode_reserved_clear h, readOperands_encode h⟩

/-- Settles O2: a decoded word has the `op` and the operands that the encoder writes, and no bit besides. -/
theorem decodedWordsEncodeToThemselves : Obligations.DecodedWordsEncodeToThemselves := by
  intro w i hd
  refine ⟨decode_wellFormed hd, ?_⟩
  obtain ⟨o, hop, hr, rfl⟩ := decode_eq_ok.mp hd
  exact encode_readOperands hop hr

/-- Settles O3: a word with a reserved `op` does not decode; the values of `op` are counted. -/
theorem reservedOpcodesRaiseIllegalCmd : Obligations.ReservedOpcodesRaiseIllegalCmd := by
  refine ⟨fun s w rest h hs hop => ?_, by decide +kernel⟩
  exact step_of_decode_error h hs (decode_of_reserved_op (ofByte_eq_none_iff.mpr hop))

/-- Settles O4: a word with a reserved bit set does not decode; SETN with code 3 does, and its own rule raises BAD_VARIANT. -/
theorem reservedBitsRaiseIllegalCmd : Obligations.ReservedBitsRaiseIllegalCmd := by
  refine ⟨fun s w rest h hs hlegal hbit => ?_, fun s rest h hs => ?_⟩
  · obtain ⟨o, hop⟩ := mem_legalOps.mp hlegal
    have hd : decode w = .error (.reservedBits o) := by
      rw [decode_of_op hop, if_neg ((reservedBitSet_iff hop).mp hbit)]
    exact step_of_decode_error h hs hd
  · have hd : decode (mkCommand 0x08 3 0 0) = .ok (.setn 3) := encodedCommandsDecodeToThemselves (.setn 3) rfl
    rw [stepRunsTheDecodedCommand s _ rest _ h hd]
    exact exec_setn_healthy (State.consume_healthy hs rest) 3

/-- Settles O5: both sides say that the word has the row's `op` and none of the row's reserved bits. -/
theorem tableRowsSelectTheirCommands : Obligations.TableRowsSelectTheirCommands := by
  intro w o
  exact decode_opcode_iff.trans (matches_row_iff w o).symm

/-- Settles O7: every operand fits its field, so the assembler takes its number and reads the operand back. -/
theorem writtenOperandsAssembleBack : Obligations.WrittenOperandsAssembleBack := by
  intro i ns h hns
  cases i with
  | setn c =>
    match c, hns with
    | 0, rfl | 1, rfl | 2, rfl => rfl
  | ldh k _ | rdh k =>
    cases hns
    have hk : fits 4 k = true := h
    simp [Instr.opcode, assembleOperands, hk]
  | proc _ cnt _ =>
    cases hns
    have hcnt : fits 16 cnt = true := h
    simp [Instr.opcode, assembleOperands, hcnt]
  | nop | rst | rdst | ldt | rdt | wrb | wrw | rdb | rdw | sth =>
    cases hns
    simp [Instr.opcode, assembleOperands]

/-- Settles O8: the words that are loaded and stored stand in order at successive indices and addresses, and the live
words are read in order. -/
theorem pseudoInstructionsExpand : Obligations.PseudoInstructionsExpand := by
  intro n
  refine ⟨fun _ _ => rfl, fun vs hvs => ?_, ?_, fun a ws haddr => ?_, fun a m haddr => ?_, ?_, fun s hs hn => ?_,
    fun _ _ _ => rfl⟩
  · refine ⟨_, if_pos hvs, (loadFrom_length 0 vs).trans hvs, fun i hi => ?_⟩
    rw [loadFrom_getElem? 0 vs (hvs ▸ hi), Nat.zero_add]
  · refine ⟨_, rfl, by simp, fun i hi => ?_⟩
    rw [loadFrom_getElem? 0 _ (by simpa using hi)]
    simp [hi]
  · exact ⟨_, if_pos (wordsAddressable_iff.mpr haddr), storeFrom_length a ws, fun k hk => storeFrom_getElem? a ws hk⟩
  · have hcount : 8 * m / 8 = m := Nat.mul_div_cancel_left m (by decide)
    have hexpand : (Pseudo.wrz a (8 * m)).expand n = some (storeFrom a (List.replicate m 0)) := by
      rw [Pseudo.expand, hcount]
      exact if_pos ⟨Nat.mul_mod_right 8 m, wordsAddressable_iff.mpr haddr⟩
    refine ⟨_, hexpand, by simp, fun k hk => ?_⟩
    rw [storeFrom_getElem? a _ (by simpa using hk)]
    simp [hk]
  · exact ⟨_, rfl, by simp, fun i hi => by simp [hi]⟩
  · exact ⟨_, _, rfl, runCommands_rdh hs fun i hi => hn ▸ List.mem_range.mp hi, rfl⟩

/-- Settles O6: eleven closed words, decoded. -/
theorem writtenOutWordsDecode : Obligations.WrittenOutWordsDecode := by
  unfold Obligations.WrittenOutWordsDecode
  decide

end Sys2Proof.Machine

/-! ## The family `40_commands_state.md`: the control commands and register access, word by word at the port -/

namespace Sys2Proof

/-! ### The operands of a word built from fields (R78) -/

/-- A value that fits in its low `k` bits is the number of those bits. -/
theorem toNat_extractLsb'_of_lt {n k : Nat} {x : BitVec n} (h : x.toNat < 2 ^ k) :
    (x.extractLsb' 0 k).toNat = x.toNat := by
  rw [BitVec.extractLsb'_toNat, Nat.shiftRight_zero, Nat.mod_eq_of_lt h]

section
variable (op : BitVec 8) {idx : BitVec 8} (addr : Addr) (data : Word)

theorem readOperands_setn_mkCommand (h : idx.toNat < 4) :
    readOperands .setn (mkCommand op idx addr data) = .setn idx.toNat := by
  rw [readOperands, idxField_mkCommand, toNat_extractLsb'_of_lt h]

theorem readOperands_ldh_mkCommand (h : idx.toNat < 16) :
    readOperands .ldh (mkCommand op idx addr data) = .ldh idx.toNat data := by
  rw [readOperands, idxField_mkCommand, dataField_mkCommand, toNat_extractLsb'_of_lt h]

theorem readOperands_rdh_mkCommand (h : idx.toNat < 16) :
    readOperands .rdh (mkCommand op idx addr data) = .rdh idx.toNat := by
  rw [readOperands, idxField_mkCommand, toNat_extractLsb'_of_lt h]

theorem readOperands_ldt_mkCommand (j : TweakIndex) :
    readOperands .ldt (mkCommand op j.code addr data) = .ldt j data := by
  rw [readOperands, idxField_mkCommand, dataField_mkCommand, tweakIndexOf_code]

theorem readOperands_rdt_mkCommand (j : TweakIndex) :
    readOperands .rdt (mkCommand op j.code addr data) = .rdt j := by
  rw [readOperands, idxField_mkCommand, tweakIndexOf_code]

end

/-- An `idx` field without reserved bits names a tweak word (R25). -/
theorem exists_tweakIndex_code {idx : BitVec 8} (h : idx.toNat < 2) : ∃ j : TweakIndex, idx = j.code :=
  ⟨_, (code_tweakIndexOf h).symm⟩

/-- Format Z reserves all three fields (R71). -/
theorem mkCommand_reserved_z_iff (op idx : BitVec 8) (addr : Addr) (data : Word) :
    mkCommand op idx addr data &&& Format.z.reserved = 0 ↔ ¬(idx ≠ 0 ∨ addr ≠ 0 ∨ data ≠ 0) :=
  (reserved_z_iff _).trans (by simp)

end Sys2Proof

namespace Sys2Proof.Machine

/-! ### A word of a command's `op` at the port -/

section
variable {s t : State} {o : Opcode} {idx : BitVec 8} {addr : Addr} {data : Word} {rest : List HostInput} {P : Prop}
  [Decidable P] (h : s.Presents (mkCommand o.byte idx addr data) rest)
  (hclear : mkCommand o.byte idx addr data &&& o.format.reserved = 0 ↔ ¬P)
  (hrun : ¬P → exec (readOperands o (mkCommand o.byte idx addr data)) (s.consume rest) = .next t)
include h hclear hrun

/-- With a reserved bit set (`P`) the word is refused or raises ILLEGAL_CMD; without one it runs its command. -/
theorem step_mkCommand :
    step s = .next (if P then (if s.fault then (s.consume rest).refuse
      else (s.consume rest).raise .illegalCmd o.byte) else t) := by
  rw [step_of_op h (opField_mkCommand _ _ _ _)]
  by_cases hP : P
  · rw [if_neg (hclear.not.mpr (not_not.mpr hP)), if_pos hP, illegalCommand, opField_mkCommand]
    rfl
  · rw [if_pos (hclear.mpr hP), if_neg hP, hrun hP]

theorem step_mkCommand_healthy (hs : s.Healthy) :
    step s = .next (if P then (s.consume rest).raise .illegalCmd o.byte else t) := by
  rw [step_mkCommand h hclear hrun, hs]
  rfl

end

/-! ### The live words of the vector -/

theorem State.readH_eq_getElem (s : State) {i : Nat} (h : i < 16) : s.readH i = s.h[i] := by
  simp [State.readH, h]

/-! ### The obligations -/

/-- Settles O16: the word of NOP runs unless one of its three fields is set; a pending fault refuses it. -/
theorem nopDoesNothing : Obligations.NopDoesNothing := by
  refine ⟨fun _ => exec_nop_healthy, fun s rest idx addr data h hs => ?_, fun s hf => ?_⟩
  · exact step_mkCommand_healthy (o := .nop) h (mkCommand_reserved_z_iff _ _ _ _) (fun _ => exec_nop_healthy hs) hs
  · exact exec_faulted hf nofun nofun

/-- Settles O17: RST has no preamble, so a fault matters only where a reserved bit is set. -/
theorem rstClearsAllButBlockMemory : Obligations.RstClearsAllButBlockMemory := by
  refine ⟨exec_rst, fun s rest idx addr data h => ?_⟩
  exact step_mkCommand (o := .rst) h (mkCommand_reserved_z_iff _ _ _ _) fun _ => exec_rst _

/-- Settles O18: RDST has no preamble, and the number that STATUS is leaves no room for another bit. -/
theorem rdstAnswersTheStatusWord : Obligations.RdstAnswersTheStatusWord := by
  refine ⟨fun s => ⟨s.status, ?_, exec_rdst s⟩, fun s rest idx addr data h => ?_⟩
  · rw [s.status_toNat]
    omega
  · exact step_mkCommand (o := .rdst) h (mkCommand_reserved_z_iff _ _ _ _) fun _ => exec_rdst _

/-- Settles O19: without a reserved bit `idx` is one of the four codes. -/
theorem setnSelectsTheVariant : Obligations.SetnSelectsTheVariant := by
  refine ⟨fun s c n hs hc => ?_, fun s rest idx addr data h hs => ?_, rfl⟩
  · subst hc
    exact exec_setn_selects hs n.ofCode_code
  · refine step_mkCommand_healthy (o := .setn) h ((reserved_v_iff _).trans (by simp)) (fun hP => ?_) hs
    have hidx : idx.toNat < 4 := Nat.lt_of_not_le (hP ∘ .inl)
    have hcodes : idx = 0 ∨ idx = 1 ∨ idx = 2 ∨ idx = 3 := by bv_omega
    rw [readOperands_setn_mkCommand _ _ _ hidx]
    obtain rfl | rfl | rfl | rfl := hcodes
    · exact exec_setn_selects (s := s.consume rest) hs (n := .n256) rfl
    · exact exec_setn_selects (s := s.consume rest) hs (n := .n512) rfl
    · exact exec_setn_selects (s := s.consume rest) hs (n := .n1024) rfl
    · exact exec_setn_healthy (s := s.consume rest) hs 3

/-- Settles O20: without a reserved bit the index is `idx`, and LDH's own test compares it with W. -/
theorem ldhLoadsOneChainingWord : Obligations.LdhLoadsOneChainingWord := by
  refine ⟨fun s i v hs hi => exec_ldh_live hs hi v, fun s rest idx addr v h hs => ?_⟩
  refine step_mkCommand_healthy (o := .ldh) h ((reserved_hw_iff _).trans (by simp)) (fun hP => ?_) hs
  rw [readOperands_ldh_mkCommand _ _ _ (Nat.lt_of_not_le (hP ∘ .inl))]
  exact exec_ldh_healthy (s := s.consume rest) hs _ v

/-- Settles O21: without a reserved bit `idx` names one of the two tweak words, and LDT has no test of its own. -/
theorem ldtLoadsOneTweakWord : Obligations.LdtLoadsOneTweakWord := by
  refine ⟨fun s v hs => ⟨exec_ldt_healthy hs .t0 v, exec_ldt_healthy hs .t1 v⟩, fun s rest idx addr v h hs => ?_⟩
  refine step_mkCommand_healthy (o := .ldt) h ((reserved_tw_iff _).trans (by simp)) (fun hP => ?_) hs
  obtain ⟨j, rfl⟩ := exists_tweakIndex_code (Nat.lt_of_not_le (hP ∘ .inl))
  rw [readOperands_ldt_mkCommand, exec_ldt_healthy (s := s.consume rest) hs]
  cases j <;> rfl

/-- Settles O22: without a reserved bit the index is `idx`, and RDH's own test compares it with W. -/
theorem rdhAnswersOneChainingWord : Obligations.RdhAnswersOneChainingWord := by
  refine ⟨fun s i hs hi => ?_, fun s rest idx addr data h hs => ?_⟩
  · have hi16 : i < 16 := hi.trans_le s.nsel.words_le
    rw [exec_rdh_live hs hi, s.readH_eq_getElem hi16]
    exact ⟨hi16, rfl⟩
  · refine step_mkCommand_healthy (o := .rdh) h ((reserved_hr_iff _).trans (by simp)) (fun hP => ?_) hs
    rw [readOperands_rdh_mkCommand _ _ _ (Nat.lt_of_not_le (hP ∘ .inl))]
    exact exec_rdh_healthy (s := s.consume rest) hs _

/-- Settles O23: without a reserved bit `idx` names one of the two tweak words, and RDT has no test of its own. -/
theorem rdtAnswersOneTweakWord : Obligations.RdtAnswersOneTweakWord := by
  refine ⟨fun s hs => ⟨exec_rdt_healthy hs .t0, exec_rdt_healthy hs .t1⟩, fun s rest idx addr data h hs => ?_⟩
  refine step_mkCommand_healthy (o := .rdt) h ((reserved_tr_iff _).trans (by simp)) (fun hP => ?_) hs
  obtain ⟨j, rfl⟩ := exists_tweakIndex_code (Nat.lt_of_not_le (hP ∘ .inl))
  rw [readOperands_rdt_mkCommand, exec_rdt_healthy (s := s.consume rest) hs]
  cases j <;> rfl

end Sys2Proof.Machine

/-! ## The family `41_commands_memory.md`: the block-memory commands, what they store and answer, and their words at the
port -/

namespace Sys2Proof

/-! ### The operands of a block-memory word built from fields (R78) -/

section
variable (op idx : BitVec 8) (addr : Addr) (data : Word)

theorem readOperands_wrb_mkCommand :
    readOperands .wrb (mkCommand op idx addr data) = .wrb addr (BitVec.ofNat 8 data.toNat) := by
  rw [readOperands, addrField_mkCommand, dataField_mkCommand]
  rfl

theorem readOperands_wrw_mkCommand : readOperands .wrw (mkCommand op idx addr data) = .wrw addr data := by
  rw [readOperands, addrField_mkCommand, dataField_mkCommand]

theorem readOperands_rdb_mkCommand : readOperands .rdb (mkCommand op idx addr data) = .rdb addr := by
  rw [readOperands, addrField_mkCommand]

theorem readOperands_rdw_mkCommand : readOperands .rdw (mkCommand op idx addr data) = .rdw addr := by
  rw [readOperands, addrField_mkCommand]

theorem readOperands_sth_mkCommand : readOperands .sth (mkCommand op idx addr data) = .sth addr := by
  rw [readOperands, addrField_mkCommand]

/-- Format MR reserves `idx` and `data` whole (R71). -/
theorem mkCommand_reserved_mr_iff :
    mkCommand op idx addr data &&& Format.mr.reserved = 0 ↔ ¬(idx ≠ 0 ∨ data ≠ 0) :=
  (reserved_mr_iff _).trans (by simp)

end

end Sys2Proof

namespace Sys2Proof.Machine

/-! ### A byte at its place after a store of words (R63) -/

theorem State.readByte_storeWords_inside (s : State) (a : Nat) {ws : List Word} {i k : Nat} (hi : i < ws.length)
    (hk : k < 8) :
    (s.storeWords a ws).readByte (a + (8 * i + k)) = (ws.getD i 0).extractLsb' (8 * k) 8 := by
  rw [State.readByte_storeWords, if_pos (by omega), Nat.add_sub_cancel_left, serialize_getD ws hi hk]

theorem State.readByte_storeWords_outside (s : State) {a x : Nat} {ws : List Word}
    (hx : x < a ∨ a + 8 * ws.length ≤ x) : (s.storeWords a ws).readByte x = s.readByte x := by
  rw [State.readByte_storeWords, if_neg (by omega)]

/-! ### A word of a block-memory command at the port -/

/-- One byte is out of range exactly at and beyond `BM_BYTES` (R54). -/
theorem State.bmBytes_le_iff_not_inRange_one (s : State) {a : Nat} : s.config.bmBytes ≤ a ↔ ¬s.inRange a 1 :=
  Nat.lt_succ_iff.symm.trans Nat.not_le.symm

/-- The order of R217 for an access of `n` bytes at `a`: a reserved bit (`P`) raises ILLEGAL_CMD before the range is
tested, and out of range (`Q`) the command raises ADDR_RANGE whatever its effect `u` would be. -/
theorem step_memory_mkCommand {s u : State} {o : Opcode} {idx : BitVec 8} {addr : Addr} {data : Word}
    {rest : List HostInput} {i : Instr} {a n : Nat} {P Q : Prop} [Decidable P] [Decidable Q]
    (h : s.Presents (mkCommand o.byte idx addr data) rest) (hs : s.Healthy)
    (hclear : mkCommand o.byte idx addr data &&& o.format.reserved = 0 ↔ ¬P)
    (hread : readOperands o (mkCommand o.byte idx addr data) = i) (hrange : Q ↔ ¬s.inRange a n)
    (hexec : exec i (s.consume rest) =
      .next (if s.inRange a n then u else (s.consume rest).raise .addrRange o.byte)) :
    step s = if P then .next ((s.consume rest).raise .illegalCmd o.byte)
      else if Q then .next ((s.consume rest).raise .addrRange o.byte)
      else exec i (s.consume rest) := by
  rw [step_mkCommand_healthy h hclear (fun _ => by rw [hread, hexec]) hs]
  by_cases hP : P
  · rw [if_pos hP, if_pos hP]
  · rw [if_neg hP, if_neg hP]
    by_cases hQ : Q
    · rw [if_pos hQ, if_neg (hrange.mp hQ)]
    · rw [if_neg hQ, hexec]

/-! ### The obligations -/

/-- Settles O24: the written byte is the one at its address, and WRB's range of one byte ends at `BM_BYTES`. -/
theorem wrbStoresOneByte : Obligations.WrbStoresOneByte := by
  refine ⟨fun s a b hs hin => ?_, fun s rest idx a data h hs => ?_⟩
  · refine ⟨_, exec_wrb_inRange hs hin b, s.readByte_memWrite_byte a.toNat b, fun x hx => ?_, rfl⟩
    exact s.readByte_memWrite_outside (by omega) _
  · have hclear : mkCommand 0x10 idx a data &&& Format.mb.reserved = 0 ↔ ¬(idx ≠ 0 ∨ 256 ≤ data.toNat) :=
      (reserved_mb_iff _).trans (by simp)
    exact step_memory_mkCommand (o := .wrb) h hs hclear (readOperands_wrb_mkCommand _ _ _ _)
      s.bmBytes_le_iff_not_inRange_one (exec_wrb_healthy (s := s.consume rest) hs a _)

/-- Settles O25: the eight written bytes are those of the word, each at its place, and none is written out of range. -/
theorem wrwStoresOneWord : Obligations.WrwStoresOneWord := by
  refine ⟨fun s a v hs hin => ?_, fun s rest idx a v h hs => ?_⟩
  · exact ⟨_, exec_wrw_inRange hs hin v, fun k hk => s.readByte_memWrite_inside a.toNat hk v,
      fun x hx => s.readByte_memWrite_outside hx v, rfl⟩
  · have hclear : mkCommand 0x11 idx a v &&& Format.mw.reserved = 0 ↔ ¬idx ≠ 0 :=
      (reserved_mw_iff _).trans (by simp)
    exact step_memory_mkCommand (o := .wrw) h hs hclear (readOperands_wrw_mkCommand _ _ _ _) Nat.not_le.symm
      (exec_wrw_healthy (s := s.consume rest) hs a v)

/-- Settles O26: a read of one byte is that byte, zero-extended, and is answered with no other effect. -/
theorem rdbAnswersOneByte : Obligations.RdbAnswersOneByte := by
  refine ⟨fun s a hs hin => exec_rdb_inRange hs hin, fun s rest idx a data h hs => ?_⟩
  exact step_memory_mkCommand (o := .rdb) h hs (mkCommand_reserved_mr_iff _ _ _ _) (readOperands_rdb_mkCommand _ _ _ _)
    s.bmBytes_le_iff_not_inRange_one (exec_rdb_healthy (s := s.consume rest) hs a)

/-- Settles O27: each byte of the word that is read stands at its address, and the word is answered with no other
effect. -/
theorem rdwAnswersOneWord : Obligations.RdwAnswersOneWord := by
  refine ⟨fun s a hs hin => ?_, fun s rest idx a data h hs => ?_⟩
  · exact ⟨s.memRead a.toNat 8, fun k hk => s.memRead_byte a.toNat le_rfl hk, exec_rdw_inRange hs hin⟩
  · exact step_memory_mkCommand (o := .rdw) h hs (mkCommand_reserved_mr_iff _ _ _ _)
      (readOperands_rdw_mkCommand _ _ _ _) Nat.not_le.symm (exec_rdw_healthy (s := s.consume rest) hs a)

/-- Settles O28: the bytes stored are the serialisation of the live words, and its NB bytes are the range tested. -/
theorem sthStoresTheChainingState : Obligations.SthStoresTheChainingState := by
  refine ⟨fun s a hs hin => ⟨_, exec_sth_inRange hs hin, fun i hi k hk => ?_, fun x hx => ?_, ?_⟩,
    fun s rest idx a data h hs => ?_⟩
  · exact (s.readByte_storeWords_inside a.toNat (by simpa using hi) hk).trans (by rw [s.liveH_getD hi])
  · exact s.readByte_storeWords_outside (by simpa using hx)
  · exact congrArg (·.answer 0) (s.storeWords_frame a.toNat s.liveH)
  · exact step_memory_mkCommand (o := .sth) h hs (mkCommand_reserved_mr_iff _ _ _ _)
      (readOperands_sth_mkCommand _ _ _ _) Nat.not_le.symm (exec_sth_healthy (s := s.consume rest) hs a)

end Sys2Proof.Machine

/-! ## The family `42_key_tweak_schedule.md`: the words of the key schedule and of the tweak schedule -/

namespace Sys2Proof.Machine

/-! ### Folding exclusive or over equal words -/

/-- Equal words cancel in pairs. -/
theorem foldl_xor_replicate_two_mul (m : Nat) (x c : Word) : (List.replicate (2 * m) x).foldl (· ^^^ ·) c = c := by
  induction m with
  | zero => rfl
  | succ m ih =>
    have hpair : c ^^^ x ^^^ x = c := by rw [BitVec.xor_assoc, BitVec.xor_self, BitVec.xor_zero]
    rw [Nat.mul_succ, List.replicate_succ, List.replicate_succ, List.foldl_cons, List.foldl_cons, hpair, ih]

theorem foldl_xor_replicate_zero (m : Nat) (c : Word) : (List.replicate m 0).foldl (· ^^^ ·) c = c := by
  induction m with
  | zero => rfl
  | succ m ih =>
    have hzero : c ^^^ 0 = c := BitVec.xor_zero
    rw [List.replicate_succ, List.foldl_cons, hzero, ih]

/-! ### The words of the key schedule (R125) -/

theorem keySchedule_getD_of_lt {k : List Word} {i : Nat} (h : i < k.length) (v : Word) :
    (keySchedule k).getD i v = k.getD i v := List.getD_append _ _ _ _ h

/-- The last word of the schedule is the parity word. -/
theorem keySchedule_getD_length {k : List Word} {w : Nat} (h : k.length = w) (v : Word) :
    (keySchedule k).getD w v = k.foldl (· ^^^ ·) c240 := by
  rw [keySchedule, List.getD_append_right _ _ _ _ h.le, h, Nat.sub_self, List.getD_cons_zero]

/-- W is even (`rotationRow_length`), so W equal words leave the parity constant. -/
theorem keySchedule_replicate_parity (n : Variant) (x v : Word) :
    (keySchedule (List.replicate n.words x)).getD n.words v = c240 := by
  rw [keySchedule_getD_length List.length_replicate, ← n.rotationRow_length 0, foldl_xor_replicate_two_mul]

/-- A key that is the parity constant and zero words cancels it. -/
theorem keySchedule_c240_parity (n : Variant) (v : Word) :
    (keySchedule (c240 :: List.replicate (n.words - 1) 0)).getD n.words v = 0 := by
  have hlen : (c240 :: List.replicate (n.words - 1) (0 : Word)).length = n.words := by
    have := n.words_pos
    rw [List.length_cons, List.length_replicate]
    omega
  rw [keySchedule_getD_length hlen, List.foldl_cons, foldl_xor_replicate_zero]
  exact BitVec.xor_self

/-! ### The obligations -/

/-- Settles O42: the parity word is the left fold of the model, which is the right fold of the statement since exclusive
or commutes, and it is C240 or 0 where the key's words cancel. -/
theorem keyScheduleAppendsTheParityWord : Obligations.KeyScheduleAppendsTheParityWord := by
  intro n k hk
  refine ⟨?_, fun i hi => ?_, ?_, fun x => ?_, ?_⟩
  · rw [keySchedule_length, hk]
  · exact keySchedule_getD_of_lt (hk ▸ hi) 0
  · exact (keySchedule_getD_length hk 0).trans List.foldl_eq_foldr
  · exact keySchedule_replicate_parity n x 0
  · exact keySchedule_c240_parity n 0

/-- Settles O43: the schedule is written out, a word cancels itself, and the spec's example is computed. -/
theorem tweakScheduleHasThreeWords : Obligations.TweakScheduleHasThreeWords := by
  refine ⟨fun _ _ => rfl, fun t => ?_, by decide⟩
  exact BitVec.xor_self (x := t)

end Sys2Proof.Machine

/-! ## The family `43_threefish_permutation.md`: injection, MIX layer and word permutation, the inverse cipher and the
in-place form -/

namespace Sys2Proof.Machine

/-! ### Lists of words -/

/-- Two blocks are equal when they hold the same word at each of their places. -/
theorem words_ext {w : Nat} {x y : List Word} (hx : x.length = w) (hy : y.length = w)
    (h : ∀ i < w, x.getD i 0 = y.getD i 0) : x = y := by
  refine List.ext_getElem (hx.trans hy.symm) fun i hi hi' => ?_
  simpa [hi, hi'] using h i (hx ▸ hi)

/-! ### Injection (R127, R136) -/

/-- The subkey word as D0 adds it: the key word, and at the last three places a second term. -/
theorem subkeyWord_eq_add (ks ts : List Word) {w : Nat} (hw : 3 ≤ w) (s i : Nat) :
    subkeyWord ks ts w s i = ks.getD ((s + i) % (w + 1)) 0 +
      (if i = w - 3 then ts.getD (s % 3) 0
      else if i = w - 2 then ts.getD ((s + 1) % 3) 0
      else if i = w - 1 then BitVec.ofNat 64 s
      else 0) := by
  have h3 : i + 3 = w ↔ i = w - 3 := by omega
  have h2 : i + 2 = w ↔ i = w - 2 := by omega
  have h1 : i + 1 = w ↔ i = w - 1 := by omega
  simp only [subkeyWord, h3, h2, h1]
  split_ifs
  · rfl
  · rfl
  · rfl
  · exact (BitVec.add_zero _).symm

theorem injectInv_length {n : Variant} {x : List Word} (h : x.length = n.words) (ks ts : List Word) (s : Nat) :
    (injectInv n ks ts s x).length = n.words := by
  rw [injectInv, List.length_zipWith, subkey_length, h, Nat.min_self]

theorem injectInv_getD {n : Variant} {x : List Word} {i : Nat} (hx : x.length = n.words) (h : i < n.words)
    (ks ts : List Word) (s : Nat) :
    (injectInv n ks ts s x).getD i 0 = x.getD i 0 - subkeyWord ks ts n.words s i := by
  have hi : i < x.length := hx ▸ h
  have hsub : i < (subkey n ks ts s).length := (subkey_length n ks ts s).symm ▸ h
  have hinv : i < (injectInv n ks ts s x).length := (injectInv_length hx ks ts s).symm ▸ h
  rw [← subkey_getD h, List.getD_eq_getElem _ _ hinv, List.getD_eq_getElem _ _ hi, List.getD_eq_getElem _ _ hsub]
  exact List.getElem_zipWith

theorem injectInv_inject {n : Variant} {x : List Word} (hx : x.length = n.words) (ks ts : List Word) (s : Nat) :
    injectInv n ks ts s (inject n ks ts s x) = x := by
  have hy := inject_length hx ks ts s
  refine words_ext (injectInv_length hy ks ts s) hx fun i hi => ?_
  rw [injectInv_getD hy hi, inject_getD hx hi, BitVec.add_sub_cancel]

theorem inject_injectInv {n : Variant} {x : List Word} (hx : x.length = n.words) (ks ts : List Word) (s : Nat) :
    inject n ks ts s (injectInv n ks ts s x) = x := by
  have hy := injectInv_length hx ks ts s
  refine words_ext (inject_length hy ks ts s) hx fun i hi => ?_
  rw [inject_getD hy hi, injectInv_getD hx hi, BitVec.sub_add_cancel]

/-! ### The MIX layer (R137, R138) -/

/-- Each neighbour pair of the layer is MIX of the pair that stood there. -/
theorem mixLayer_getD (rs : List Nat) (x : List Word) (hx : 2 * rs.length = x.length) {j : Nat} (hj : j < rs.length) :
    ((mixLayer rs x).getD (2 * j) 0, (mixLayer rs x).getD (2 * j + 1) 0) =
      mix (x.getD (2 * j) 0) (x.getD (2 * j + 1) 0) (rs.getD j 0) := by
  fun_induction mixLayer rs x generalizing j with
  | case1 r rs a b xs ih =>
    cases j with
    | zero => rfl
    | succ j => exact ih (by simp only [List.length_cons] at hx; omega) (by simpa using hj)
  | case2 rs xs hnone =>
    match rs, xs with
    | [], _ => simp at hj
    | _ :: _, [] => simp at hx
    | _ :: _, [_] => simp at hx
    | _ :: _, _ :: _ :: _ => exact (hnone _ _ _ _ _ rfl rfl).elim

/-- Rotating left undoes rotating right by the same amount (R145). -/
theorem rotr64_rotl64 (x : Word) {r : Nat} (h1 : 1 ≤ r) (h2 : r ≤ 63) : rotl64 (rotr64 x r) r = x := by
  have h := rotl64_rotr64 x (r := 64 - r) (by omega) (by omega)
  rwa [rotr64, Nat.sub_sub_self (by omega)] at h

/-- MIX undoes MIX_inv (R145). -/
theorem mix_mixInv (a b : Word) {r : Nat} (h1 : 1 ≤ r) (h2 : r ≤ 63) :
    mix (mixInv a b r).1 (mixInv a b r).2 r = (a, b) := by
  have hxor : b ^^^ a ^^^ a = b := by rw [BitVec.xor_assoc, BitVec.xor_self, BitVec.xor_zero]
  simp [mixInv, mix, sub64, add64, rotr64_rotl64 _ h1 h2, hxor]

theorem mixLayerInv_length (rs : List Nat) (x : List Word) : (mixLayerInv rs x).length = x.length := by
  fun_induction mixLayerInv rs x with
  | case1 r rs a b xs ih => simp [ih]
  | case2 => rfl

theorem mixLayerInv_mixLayer {rs : List Nat} (hrs : ∀ r ∈ rs, 1 ≤ r ∧ r ≤ 63) (x : List Word) :
    mixLayerInv rs (mixLayer rs x) = x := by
  fun_induction mixLayer rs x with
  | case1 r rs a b xs ih =>
    obtain ⟨⟨h1, h2⟩, htail⟩ := List.forall_mem_cons.mp hrs
    rw [mixLayerInv, mixInv_mix a b h1 h2, ih htail]
  | case2 rs xs hnone =>
    rw [mixLayerInv]
    exact hnone

theorem mixLayer_mixLayerInv {rs : List Nat} (hrs : ∀ r ∈ rs, 1 ≤ r ∧ r ≤ 63) (x : List Word) :
    mixLayer rs (mixLayerInv rs x) = x := by
  fun_induction mixLayerInv rs x with
  | case1 r rs a b xs ih =>
    obtain ⟨⟨h1, h2⟩, htail⟩ := List.forall_mem_cons.mp hrs
    rw [mixLayer, mix_mixInv a b h1 h2, ih htail]
  | case2 rs xs hnone =>
    rw [mixLayer]
    exact hnone

/-! ### The word permutation (R139) -/

theorem Variant.pi_getD_lt (n : Variant) : ∀ i < n.words, n.pi.getD i 0 < n.words := by cases n <;> decide

/-- The cycles of PI_W have lengths 1, 2 and 4. -/
theorem Variant.pi_four_times (n : Variant) :
    ∀ i < n.words, n.pi.getD (n.pi.getD (n.pi.getD (n.pi.getD i 0) 0) 0) 0 = i := by cases n <;> decide

theorem Variant.pi_idxOf_lt (n : Variant) : ∀ i < n.words, n.pi.idxOf i < n.words := by cases n <;> decide

theorem Variant.pi_getD_idxOf (n : Variant) : ∀ i < n.words, n.pi.getD (n.pi.idxOf i) 0 = i := by cases n <;> decide

theorem Variant.pi_idxOf_getD (n : Variant) : ∀ i < n.words, n.pi.idxOf (n.pi.getD i 0) = i := by cases n <;> decide

theorem permute_four_times {n : Variant} {y : List Word} (hy : y.length = n.words) :
    permute n (permute n (permute n (permute n y))) = y := by
  refine words_ext (permute_length n _) hy fun i hi => ?_
  have h1 := n.pi_getD_lt i hi
  have h2 := n.pi_getD_lt _ h1
  rw [permute_getD hi, permute_getD h1, permute_getD h2, permute_getD (n.pi_getD_lt _ h2), n.pi_four_times i hi]

theorem permute_n256_twice {y : List Word} (hy : y.length = 4) : permute .n256 (permute .n256 y) = y := by
  match y, hy with
  | [_, _, _, _], _ => rfl

theorem permuteInv_length (n : Variant) (z : List Word) : (permuteInv n z).length = n.words := by
  rw [permuteInv, List.length_map, List.length_range]

theorem permuteInv_getD {n : Variant} {i : Nat} (h : i < n.words) (z : List Word) :
    (permuteInv n z).getD i 0 = z.getD (n.pi.idxOf i) 0 := by
  simp [permuteInv, List.getD_eq_getElem?_getD, h]

theorem permuteInv_permute {n : Variant} {y : List Word} (hy : y.length = n.words) :
    permuteInv n (permute n y) = y := by
  refine words_ext (permuteInv_length n _) hy fun i hi => ?_
  rw [permuteInv_getD hi, permute_getD (n.pi_idxOf_lt i hi), n.pi_getD_idxOf i hi]

theorem permute_permuteInv {n : Variant} {z : List Word} (hz : z.length = n.words) :
    permute n (permuteInv n z) = z := by
  refine words_ext (permute_length n _) hz fun i hi => ?_
  rw [permute_getD hi, permuteInv_getD (n.pi_getD_lt i hi), n.pi_idxOf_getD i hi]

/-! ### The inverse cipher (R145) -/

/-- Round `d` undone. -/
def roundInv (n : Variant) (d : Nat) (z : List Word) : List Word := mixLayerInv (n.rotationRow d) (permuteInv n z)

theorem roundInv_length (n : Variant) (d : Nat) (z : List Word) : (roundInv n d z).length = n.words := by
  rw [roundInv, mixLayerInv_length, permuteInv_length]

theorem roundInv_round {n : Variant} {x : List Word} (hx : x.length = n.words) (d : Nat) :
    roundInv n d (round n d x) = x := by
  rw [roundInv, round, permuteInv_permute ((mixLayer_length _ x).trans hx),
    mixLayerInv_mixLayer (n.rotationRow_range d)]

theorem round_roundInv {n : Variant} {z : List Word} (hz : z.length = n.words) (d : Nat) :
    round n d (roundInv n d z) = z := by
  rw [roundInv, round, mixLayer_mixLayerInv (n.rotationRow_range d), permute_permuteInv hz]

/-- The injection that follows round `d`, where there is one (the loop of R141). -/
def injectAfter (n : Variant) (ks ts : List Word) (d : Nat) (y : List Word) : List Word :=
  if (d + 1) % 4 = 0 then inject n ks ts ((d + 1) / 4) y else y

/-- The injection that follows round `d` undone, where there is one (the loop of R145). -/
def injectAfterInv (n : Variant) (ks ts : List Word) (d : Nat) (z : List Word) : List Word :=
  if (d + 1) % 4 = 0 then injectInv n ks ts ((d + 1) / 4) z else z

section
variable {n : Variant} {x : List Word} (hx : x.length = n.words) (ks ts : List Word) (d : Nat)
include hx

theorem injectAfter_length : (injectAfter n ks ts d x).length = n.words := by
  rw [injectAfter]
  split
  · exact inject_length hx _ _ _
  · exact hx

theorem injectAfterInv_length : (injectAfterInv n ks ts d x).length = n.words := by
  rw [injectAfterInv]
  split
  · exact injectInv_length hx _ _ _
  · exact hx

theorem injectAfterInv_injectAfter : injectAfterInv n ks ts d (injectAfter n ks ts d x) = x := by
  rw [injectAfterInv, injectAfter]
  split
  · exact injectInv_inject hx _ _ _
  · rfl

theorem injectAfter_injectAfterInv : injectAfter n ks ts d (injectAfterInv n ks ts d x) = x := by
  rw [injectAfterInv, injectAfter]
  split
  · exact inject_injectInv hx _ _ _
  · rfl

end

theorem encryptRounds_succ (n : Variant) (ks ts : List Word) (d : Nat) (x : List Word) :
    encryptRounds n ks ts (d + 1) x = injectAfter n ks ts d (round n d (encryptRounds n ks ts d x)) := rfl

theorem decryptRounds_succ (n : Variant) (ks ts : List Word) (d : Nat) (z : List Word) :
    decryptRounds n ks ts (d + 1) z = decryptRounds n ks ts d (roundInv n d (injectAfterInv n ks ts d z)) := rfl

theorem decryptRounds_length {n : Variant} {z : List Word} (hz : z.length = n.words) (ks ts : List Word) (d : Nat) :
    (decryptRounds n ks ts d z).length = n.words := by
  induction d generalizing z with
  | zero => exact hz
  | succ d ih => exact ih (roundInv_length n d _)

/-- The rounds are undone from the last one back. -/
theorem decryptRounds_encryptRounds {n : Variant} {x : List Word} (hx : x.length = n.words) (ks ts : List Word)
    (d : Nat) : decryptRounds n ks ts d (encryptRounds n ks ts d x) = x := by
  induction d with
  | zero => rfl
  | succ d ih =>
    rw [encryptRounds_succ, decryptRounds_succ, injectAfterInv_injectAfter (round_length n d _),
      roundInv_round (encryptRounds_length hx ks ts d), ih]

theorem encryptRounds_decryptRounds {n : Variant} {z : List Word} (hz : z.length = n.words) (ks ts : List Word)
    (d : Nat) : encryptRounds n ks ts d (decryptRounds n ks ts d z) = z := by
  induction d generalizing z with
  | zero => rfl
  | succ d ih =>
    rw [decryptRounds_succ, encryptRounds_succ, ih (roundInv_length n d _),
      round_roundInv (injectAfterInv_length hz ks ts d), injectAfter_injectAfterInv hz]

theorem decrypt_encrypt {n : Variant} {b : List Word} (hb : b.length = n.words) (ks ts : List Word) :
    decrypt n ks ts (encrypt n ks ts b) = b := by
  rw [decrypt, encrypt, decryptRounds_encryptRounds (inject_length hb ks ts 0), injectInv_inject hb]

theorem encrypt_decrypt {n : Variant} {c : List Word} (hc : c.length = n.words) (ks ts : List Word) :
    encrypt n ks ts (decrypt n ks ts c) = c := by
  rw [decrypt, encrypt, inject_injectInv (decryptRounds_length hc ks ts _), encryptRounds_decryptRounds hc]

/-! ### The order of the slots in the in-place form (R143, R166) -/

/-- Each row of the printed table is PI_W applied to the row before it, and row 0 to the last one. -/
theorem pairTable_succ (n : Variant) :
    ∀ k < 4, n.pi.map (fun i => ((pairTable n).getD k []).getD i 0) = (pairTable n).getD ((k + 1) % 4) [] := by
  cases n <;> decide

theorem slotOrder_eq_pairTable (n : Variant) (d : Nat) : slotOrder n d = (pairTable n).getD (d % 4) [] := by
  induction d with
  | zero => cases n <;> rfl
  | succ d ih => rw [slotOrder, ih, pairTable_succ n _ (Nat.mod_lt d (by decide)), Nat.mod_add_mod]

/-- No two words share a slot. -/
theorem slotOrder_nodup (n : Variant) (d : Nat) : (slotOrder n d).Nodup := by
  have h : ∀ k < 4, ((pairTable n).getD k []).Nodup := by cases n <;> decide
  exact slotOrder_eq_pairTable n d ▸ h _ (Nat.mod_lt d (by decide))

theorem slotOrder_length (n : Variant) (d : Nat) : (slotOrder n d).length = n.words := by
  cases d with
  | zero => exact List.length_range
  | succ d => rw [slotOrder, List.length_map, n.pi_length]

theorem slotOrder_lt (n : Variant) (d : Nat) : ∀ a ∈ slotOrder n d, a < n.words := by
  have h : ∀ k < 4, ∀ a ∈ (pairTable n).getD k [], a < n.words := by cases n <;> decide
  exact slotOrder_eq_pairTable n d ▸ h _ (Nat.mod_lt d (by decide))

/-- Every four rounds each word is back in its own slot. -/
theorem slotOrder_of_mod_four {n : Variant} {d : Nat} (h : d % 4 = 0) : slotOrder n d = List.range n.words := by
  rw [slotOrder_eq_pairTable, h]
  cases n <;> rfl

/-! ### The words of the explicit form, read from the slots of the in-place form -/

/-- The words that the slots `p` of `z` hold, in the order of `p`. -/
def readSlots (p : List Nat) (z : List Word) : List Word := p.map fun a => z.getD a 0

theorem readSlots_range {z : List Word} {w : Nat} (hz : z.length = w) : readSlots (List.range w) z = z := by
  refine words_ext (by simp [readSlots]) hz fun i hi => ?_
  simp [readSlots, List.getD_eq_getElem?_getD, hi]

theorem readSlots_congr {p : List Nat} {y z : List Word} (h : ∀ a ∈ p, y.getD a 0 = z.getD a 0) :
    readSlots p y = readSlots p z := List.map_congr_left h

/-- Moving the order of the slots moves the words that are read. -/
theorem readSlots_slotOrder_succ (n : Variant) (d : Nat) (z : List Word) :
    readSlots (slotOrder n (d + 1)) z = permute n (readSlots (slotOrder n d) z) := by
  rw [slotOrder, readSlots, permute, List.map_map]
  refine List.map_congr_left fun i hi => ?_
  have hlen : i < (slotOrder n d).length := by
    rw [slotOrder_length]
    exact n.pi_lt i hi
  simp [readSlots, hlen]

/-! ### MIX in place -/

theorem getD_set_ne (z : List Word) {a c : Nat} (h : a ≠ c) (v : Word) : (z.set a v).getD c 0 = z.getD c 0 := by
  rw [List.getD_eq_getElem?_getD, List.getElem?_set_ne h, ← List.getD_eq_getElem?_getD]

theorem getD_set_self {z : List Word} {a : Nat} (h : a < z.length) (v : Word) : (z.set a v).getD a 0 = v := by
  rw [List.getD_eq_getElem?_getD, List.getElem?_set_self h, Option.getD_some]

theorem mixSlots_length (rs ps : List Nat) (z : List Word) : (mixSlots rs ps z).length = z.length := by
  fun_induction mixSlots rs ps z with
  | case1 r rs a b ps z m ih => simpa using ih
  | case2 => rfl

/-- A slot outside the pairs is kept. -/
theorem mixSlots_getD_of_notMem {rs ps : List Nat} {z : List Word} {c : Nat} (hc : c ∉ ps) :
    (mixSlots rs ps z).getD c 0 = z.getD c 0 := by
  fun_induction mixSlots rs ps z with
  | case1 r rs a b ps z m ih =>
    obtain ⟨ha, hb, hps⟩ : c ≠ a ∧ c ≠ b ∧ c ∉ ps := by simpa using hc
    rw [ih hps, getD_set_ne _ hb.symm, getD_set_ne _ ha.symm]
  | case2 => rfl

/-- MIX on the pairs of slots in place is the MIX layer on the words read from them. -/
theorem readSlots_mixSlots {rs ps : List Nat} {z : List Word} (hnd : ps.Nodup) (hlt : ∀ a ∈ ps, a < z.length) :
    readSlots ps (mixSlots rs ps z) = mixLayer rs (readSlots ps z) := by
  fun_induction mixSlots rs ps z with
  | case1 r rs a b ps z m ih =>
    obtain ⟨hab, ha, hb, hps⟩ : a ≠ b ∧ a ∉ ps ∧ b ∉ ps ∧ ps.Nodup := by
      obtain ⟨ha, hb, hps⟩ : a ∉ b :: ps ∧ b ∉ ps ∧ ps.Nodup := by simpa only [List.nodup_cons] using hnd
      exact ⟨List.ne_of_not_mem_cons ha, List.not_mem_of_not_mem_cons ha, hb, hps⟩
    obtain ⟨hla, hlb, hlps⟩ : a < z.length ∧ b < z.length ∧ ∀ c ∈ ps, c < z.length := by simpa using hlt
    have hrest : readSlots ps ((z.set a m.1).set b m.2) = readSlots ps z := readSlots_congr fun c hc => by
      rw [getD_set_ne _ (ne_of_mem_of_not_mem hc hb).symm, getD_set_ne _ (ne_of_mem_of_not_mem hc ha).symm]
    have ha' : (mixSlots rs ps ((z.set a m.1).set b m.2)).getD a 0 = m.1 := by
      rw [mixSlots_getD_of_notMem ha, getD_set_ne _ hab.symm, getD_set_self hla]
    have hb' : (mixSlots rs ps ((z.set a m.1).set b m.2)).getD b 0 = m.2 := by
      rw [mixSlots_getD_of_notMem hb, getD_set_self (by simpa using hlb)]
    have ih := ih hps (by simpa using hlps)
    rw [hrest] at ih
    simp only [readSlots, List.map_cons, mixLayer] at ih ⊢
    rw [ih, ha', hb']
  | case2 rs ps z hnone =>
    rw [mixLayer]
    intro r rs' a b xs hr hxs
    match ps, hxs with
    | c :: c' :: ps, _ => exact hnone _ _ _ _ _ hr rfl

/-! ### The in-place rounds -/

theorem encryptRoundsInPlace_succ (n : Variant) (ks ts : List Word) (d : Nat) (x : List Word) :
    encryptRoundsInPlace n ks ts (d + 1) x =
      injectAfter n ks ts d (mixSlots (n.rotationRow d) (slotOrder n d) (encryptRoundsInPlace n ks ts d x)) := rfl

theorem encryptRoundsInPlace_length {n : Variant} {x : List Word} (hx : x.length = n.words) (ks ts : List Word)
    (d : Nat) : (encryptRoundsInPlace n ks ts d x).length = n.words := by
  induction d with
  | zero => exact hx
  | succ d ih => exact injectAfter_length ((mixSlots_length _ _ _).trans ih) ks ts d

/-- An injection falls only where every word is in its own slot, so it commutes with reading the slots. -/
theorem readSlots_injectAfter {n : Variant} {z : List Word} (hz : z.length = n.words) (ks ts : List Word) (d : Nat) :
    readSlots (slotOrder n (d + 1)) (injectAfter n ks ts d z) =
      injectAfter n ks ts d (readSlots (slotOrder n (d + 1)) z) := by
  by_cases h : (d + 1) % 4 = 0
  · rw [slotOrder_of_mod_four h, readSlots_range hz, readSlots_range (injectAfter_length hz ks ts d)]
  · rw [injectAfter, injectAfter, if_neg h, if_neg h]

/-- After `d` rounds the words of the explicit form are those in the slots `p_d`. -/
theorem readSlots_encryptRoundsInPlace {n : Variant} {x : List Word} (hx : x.length = n.words) (ks ts : List Word)
    (d : Nat) : readSlots (slotOrder n d) (encryptRoundsInPlace n ks ts d x) = encryptRounds n ks ts d x := by
  induction d with
  | zero => exact readSlots_range hx
  | succ d ih =>
    have hz := encryptRoundsInPlace_length hx ks ts d
    rw [encryptRoundsInPlace_succ, encryptRounds_succ, readSlots_injectAfter ((mixSlots_length _ _ _).trans hz),
      readSlots_slotOrder_succ, readSlots_mixSlots (slotOrder_nodup n d) (hz ▸ slotOrder_lt n d), ih, round]

theorem Variant.rounds_mod_four (n : Variant) : n.rounds % 4 = 0 := by cases n <;> rfl

theorem encryptInPlace_eq_encrypt {n : Variant} {b : List Word} (hb : b.length = n.words) (ks ts : List Word) :
    encryptInPlace n ks ts b = encrypt n ks ts b := by
  have hx := inject_length hb ks ts 0
  have h := readSlots_encryptRoundsInPlace hx ks ts n.rounds
  rwa [slotOrder_of_mod_four n.rounds_mod_four, readSlots_range (encryptRoundsInPlace_length hx ks ts _)] at h

/-! ### The obligations -/

/-- Settles O44: a word of the subkey is the key word, with the tweak words and the counter at the last three places. -/
theorem injectionAddsKeyTweakAndCounter : Obligations.InjectionAddsKeyTweakAndCounter := by
  intro n ks ts x s hx
  refine ⟨inject_length hx ks ts s, fun i hi => ?_⟩
  have hw : 3 ≤ n.words := (by decide : 3 ≤ 4).trans n.words_pos
  rw [inject_getD hx hi, subkeyWord_eq_add ks ts hw, BitVec.add_assoc]

/-- Settles O45: the row of round d has an amount for each pair, and the layer is MIX on each pair. -/
theorem mixLayerMixesNeighbourPairs : Obligations.MixLayerMixesNeighbourPairs := by
  intro n d x hx
  refine ⟨(mixLayer_length _ x).trans hx, fun j hj => ?_⟩
  have hrow := n.rotationRow_length d
  have hpair := mixLayer_getD (n.rotationRow d) x (hrow.trans hx.symm) (show j < _ by omega)
  exact Prod.ext_iff.mp hpair

/-- Settles O46: reading four times through PI_W comes back to the slot itself. -/
theorem permutationReassignsEachSlot : Obligations.PermutationReassignsEachSlot := by
  refine ⟨fun n y hy => ⟨permute_length n y, fun i hi => permute_getD hi y, permute_four_times hy⟩,
    fun _ _ _ => rfl, fun y hy => permute_n256_twice hy, rfl⟩

/-- Settles O47: each layer of a round undoes its inverse and is undone by it, and so do the rounds, by induction. -/
theorem decryptionInvertsEncryption : Obligations.DecryptionInvertsEncryption := by
  intro n ks ts b hb
  exact ⟨decrypt_encrypt hb ks ts, encrypt_decrypt hb ks ts⟩

/-- Settles O48: the explicit form is read from the slots of the in-place form in the order `p_d`, which is the identity
after the last round. -/
theorem inPlaceFormComputesTheSameCipher : Obligations.InPlaceFormComputesTheSameCipher :=
  ⟨fun _ ks ts _ hb => encryptInPlace_eq_encrypt hb ks ts, slotOrder_eq_pairTable⟩

end Sys2Proof.Machine

/-! ## The family `45_ubi_iterator.md`: PROC, its blocks one after another, the byte counter and the first flag -/

namespace Sys2Proof

/-! ### The operands of a word of PROC built from fields (R78) -/

section
variable (op idx : BitVec 8) (addr : Addr) {data : Word}

theorem readOperands_proc_mkCommand (h : data.toNat < 65536) :
    readOperands .proc (mkCommand op idx addr data) = .proc addr data.toNat idx := by
  rw [readOperands, idxField_mkCommand, addrField_mkCommand, dataField_mkCommand, toNat_extractLsb'_of_lt h]

/-- Format P reserves the bits of `data` above CNT (R71). -/
theorem mkCommand_reserved_p_iff :
    mkCommand op idx addr data &&& Format.p.reserved = 0 ↔ ¬65536 ≤ data.toNat :=
  (reserved_p_iff _).trans (by simp)

end

end Sys2Proof

namespace Sys2Proof.Machine

/-! ### PROC in a healthy engine: its two tests in their order, and one block -/

section
variable {s : State} (h : s.Healthy)
include h

theorem exec_proc_zeroBlocks (p : Addr) (add : Byte) :
    exec (.proc p 0 add) s = .next (s.raise .zeroBlocks Opcode.proc.byte) := by
  rw [exec_proc_healthy h, if_pos rfl]

theorem exec_proc_outOfRange {p : Addr} {cnt : Nat} (hcnt : cnt ≠ 0)
    (hout : s.config.bmBytes < p.toNat + cnt * s.nsel.blockBytes) (add : Byte) :
    exec (.proc p cnt add) s = .next (s.raise .addrRange Opcode.proc.byte) := by
  rw [exec_proc_healthy h, if_neg hcnt, if_neg (Nat.not_le.mpr hout)]

theorem exec_proc_oneBlock {p : Addr} (hin : s.inRange p.toNat s.nsel.blockBytes) (add : Byte) :
    exec (.proc p 1 add) s = .next ((s.ubiBlock p.toNat add).answer 0) :=
  exec_proc_inRange h Nat.one_ne_zero (by rwa [Nat.one_mul]) add

end

/-! ### The first flag bit by bit -/

theorem State.ubiBlocks_t1_getLsbD (s : State) (p cnt : Nat) (add : Byte) {j : Nat} (h : j ≠ 62) :
    (s.ubiBlocks p cnt add).t1.getLsbD j = s.t1.getLsbD j := by
  rw [State.ubiBlocks_t1]
  split
  · rfl
  · exact and_firstFlagMask_getLsbD s.t1 h

/-! ### The feed-forward undone -/

/-- Exclusive or with the words of a block twice gives the first words back. -/
theorem zipWith_xor_xor {x b : List Word} (h : x.length = b.length) :
    List.zipWith (· ^^^ ·) (List.zipWith (· ^^^ ·) x b) b = x := by
  refine List.ext_getElem (by simp [h]) fun i _ _ => ?_
  rw [List.getElem_zipWith, List.getElem_zipWith, BitVec.xor_assoc, BitVec.xor_self, BitVec.xor_zero]

/-- The live words after a block, as a list: ciphertext xor block (R171, R172). -/
theorem State.ubiBlock_liveH (s : State) (p : Nat) (add : Byte) :
    (s.ubiBlock p add).liveH = List.zipWith (· ^^^ ·)
      (threefish s.nsel s.liveH (add64 s.t0 (add.zeroExtend 64)) s.t1 (s.blockWords p)) (s.blockWords p) := by
  have hb := s.blockWords_length p
  have hc := threefish_length hb s.liveH (add64 s.t0 (add.zeroExtend 64)) s.t1
  refine words_ext (w := s.nsel.words) (by simp) (by simp [hb, hc]) fun i hi => ?_
  rw [State.liveH_getD _ (by simpa using hi), State.ubiBlock_readH s p add hi]
  simp [List.getD_eq_getElem?_getD, hb, hc, hi]

/-! ### Many commands, and many PROCs of one block -/

/-- A run is the run of its first commands and then that of the others. -/
theorem runCommands_append {is js : List Instr} {s t : State} (h : runCommands is s = .next t) :
    runCommands (is ++ js) s = runCommands js t := by
  induction is generalizing s with
  | nil => cases h; rfl
  | cons i is ih =>
    obtain ⟨v, hv⟩ := exec_next i s
    rw [runCommands_cons hv] at h
    rw [List.cons_append, runCommands_cons hv, ih h]

/-- The PROCs of one block that R176 sets against one PROC of `cnt` blocks of `nb` bytes. -/
def singleBlockProcs (p nb cnt : Nat) (add : Byte) : List Instr :=
  (List.range cnt).map fun k => .proc (BitVec.ofNat 16 (p + k * nb)) 1 add

theorem singleBlockProcs_succ (p nb cnt : Nat) (add : Byte) :
    singleBlockProcs p nb (cnt + 1) add =
      singleBlockProcs p nb cnt add ++ [.proc (BitVec.ofNat 16 (p + cnt * nb)) 1 add] := by
  simp [singleBlockProcs, List.range_succ]

theorem Variant.blockBytes_pos (n : Variant) : 0 < n.blockBytes := by cases n <;> decide

/-- Each PROC of one block is in range where the whole is, does the next block, and leaves one response. -/
theorem runCommands_singleBlockProcs {s : State} (hs : s.Healthy) (hbm : s.config.bmBytes ≤ 65536) {p cnt : Nat}
    (hin : s.inRange p (cnt * s.nsel.blockBytes)) (add : Byte) :
    runCommands (singleBlockProcs p s.nsel.blockBytes cnt add) s =
      .next { s.ubiBlocks p cnt add with
        responses := List.replicate cnt { err := false, data := 0 } ++ s.responses } := by
  induction cnt with
  | zero => rfl
  | succ n ih =>
    have hend : p + n * s.nsel.blockBytes + s.nsel.blockBytes ≤ s.config.bmBytes := by
      rw [Nat.add_assoc, ← Nat.succ_mul]
      exact hin
    have haddr : (BitVec.ofNat 16 (p + n * s.nsel.blockBytes)).toNat = p + n * s.nsel.blockBytes := by
      have := s.nsel.blockBytes_pos
      rw [BitVec.toNat_ofNat]
      exact Nat.mod_eq_of_lt (by omega)
    have hfirst := ih ((Nat.le_add_right _ _).trans hend)
    rw [singleBlockProcs_succ, runCommands_append hfirst,
      runCommands_cons (exec_proc_oneBlock (by simpa using hs) (by simpa [haddr] using hend) add), haddr,
      State.ubiBlocks_succ]
    rfl

/-! ### The obligations -/

/-- Settles O34: the states between the blocks are the iteration stopped early, and a word of PROC without reserved bits
runs PROC, whose tests come in the order of R170. -/
theorem procIteratesUbiBlock : Obligations.ProcIteratesUbiBlock := by
  refine ⟨fun s ptr cnt add hs hcnt hin => ?_, fun s rest idx ptr data h hs => ?_⟩
  · refine ⟨fun k => s.ubiBlocks ptr.toNat k add, rfl, fun k _ => s.ubiBlocks_succ ptr.toNat k add, ?_,
      fun i hi => s.ubiBlocks_readH_hidden _ _ _ hi, fun j hj => s.ubiBlocks_t1_getLsbD _ _ _ hj⟩
    rw [exec_proc_inRange hs hcnt hin, State.ubiBlocks_frame]
    rfl
  · obtain ⟨t, ht⟩ := exec_next (.proc ptr data.toNat idx) (s.consume rest)
    have hrun : ¬65536 ≤ data.toNat →
        exec (readOperands .proc (mkCommand 0x20 idx ptr data)) (s.consume rest) = .next t := fun hP => by
      rw [readOperands_proc_mkCommand _ _ _ (Nat.lt_of_not_le hP), ht]
    rw [step_mkCommand_healthy (o := .proc) h (mkCommand_reserved_p_iff _ _ _) hrun hs]
    by_cases hP : 65536 ≤ data.toNat
    · rw [if_pos hP, if_pos hP]
      rfl
    rw [if_neg hP, if_neg hP, ← ht]
    by_cases hzero : data = 0
    · subst hzero
      exact exec_proc_zeroBlocks (s := s.consume rest) hs ptr idx
    rw [if_neg hzero]
    by_cases hout : s.config.bmBytes < ptr.toNat + data.toNat * (8 * s.nsel.words)
    · have hcnt : data.toNat ≠ 0 := fun h0 => hzero (BitVec.eq_of_toNat_eq h0)
      rw [if_pos hout]
      exact exec_proc_outOfRange (s := s.consume rest) hs hcnt hout idx
    · rw [if_neg hout]
      rfl

/-- Settles O35: the PROC is one UBI step, whose words are those of the cipher xor the block. -/
theorem procOfOneBlockIsOneUbiStep : Obligations.ProcOfOneBlockIsOneUbiStep := by
  intro s ptr add hs hin
  exact ⟨_, exec_proc_oneBlock hs hin add, rfl, rfl, fun i hi => s.ubiBlock_readH ptr.toNat add hi,
    fun i hi => s.ubiBlock_readH_hidden ptr.toNat add hi, rfl⟩

/-- Settles O36: the live words are the ciphertext xor the block, and the block cancels. -/
theorem feedForwardRecoversTheCiphertext : Obligations.FeedForwardRecoversTheCiphertext := by
  intro s p add
  have hb := s.blockWords_length p
  rw [State.ubiBlock_liveH, zipWith_xor_xor ((threefish_length hb _ _ _).trans hb.symm)]

/-- Settles O37, from the byte counter and T[1] after the iteration. -/
theorem procAdvancesTheByteCounter : Obligations.ProcAdvancesTheByteCounter := by
  intro s ptr cnt add hs hcnt hin
  exact ⟨_, exec_proc_inRange hs hcnt hin add, s.ubiBlocks_t0 _ _ _, fun j hj => s.ubiBlocks_t1_getLsbD _ _ _ hj⟩

/-- Settles O38: the mask has every bit but bit 62, and clearing the flag again changes nothing. -/
theorem firstFlagIsClearedAfterEachBlock : Obligations.FirstFlagIsClearedAfterEachBlock := by
  refine ⟨fun s p add => ⟨?_, fun j hj => and_firstFlagMask_getLsbD s.t1 hj⟩, fun s p add k => s.ubiBlocks_t1 p k add⟩
  rw [State.ubiBlock_t1, BitVec.getLsbD_and, firstFlagMask_getLsbD 62 (by decide)]
  exact Bool.and_false _

/-- Settles O39: one PROC is the iteration, and so is the run of PROCs of one block each. -/
theorem procOfManyBlocksIsManyProcs : Obligations.ProcOfManyBlocksIsManyProcs := by
  intro s ptr cnt add hs hwf hcnt hin
  obtain ⟨-, hbm, -⟩ := hwf
  exact ⟨_, _, exec_proc_inRange hs hcnt hin add, runCommands_singleBlockProcs hs hbm hin add, rfl⟩

end Sys2Proof.Machine

/-! ## The family `60_exceptions.md`: the cause of a fault, the engine with a fault pending, and the ways out -/

namespace Sys2Proof.Machine

/-! ### The cause that a command's own rule raises (R217, tests 3 to 6) -/

/-- The test of the range of an access of `n` bytes at `a` (R216). -/
def State.rangeCause (s : State) (a n : Nat) : Option Cause :=
  if s.config.bmBytes < a + n then some .addrRange else none

/-- The cause that a command's own rule raises in a healthy engine, read from its operands (R213 to R216). -/
def State.ownCause (s : State) : Instr → Option Cause
  | .setn c => if 3 ≤ c then some .badVariant else none
  | .ldh k _ | .rdh k => if s.nsel.words ≤ k then some .badIndex else none
  | .wrb a _ | .rdb a => s.rangeCause a.toNat 1
  | .wrw a _ | .rdw a => s.rangeCause a.toNat 8
  | .sth a => s.rangeCause a.toNat s.nsel.blockBytes
  | .proc p cnt _ => if cnt = 0 then some .zeroBlocks else s.rangeCause p.toNat (cnt * s.nsel.blockBytes)
  | .nop | .rst | .rdst | .ldt _ _ | .rdt _ => none

theorem State.ownCause_consume (s : State) (rest : List HostInput) (i : Instr) :
    (s.consume rest).ownCause i = s.ownCause i := rfl

/-- What the engine has done in `t` with a command of opcode byte `o` presented in `s`: taken the fault of the cause, or,
without a cause, answered with ERR = 0 and no fault. -/
def Verdict (s : State) (o : BitVec 8) (cause : Option Cause) (t : State) : Prop :=
  match cause with
  | some c => t = s.raise c o
  | none => t.fault = false ∧ ∃ v, t.responses = { err := false, data := v } :: s.responses

section
variable {s u : State} {o : BitVec 8}

/-- A test whose failure takes a fault, before what else decides. -/
theorem Verdict.test {p : Prop} [Decidable p] {c : Cause} {x : Option Cause} (hu : Verdict s o x u) :
    Verdict s o (if p then some c else x) (if p then s.raise c o else u) := by
  by_cases hp : p
  · rw [if_pos hp, if_pos hp]
    rfl
  · rw [if_neg hp, if_neg hp]
    exact hu

/-- The test of the range, before an effect that is answered. -/
theorem Verdict.access {a n : Nat} (hu : Verdict s o none u) :
    Verdict s o (s.rangeCause a n) (if s.inRange a n then u else s.raise .addrRange o) := by
  rw [← ite_not, State.rangeCause, if_congr Nat.not_le.symm rfl rfl]
  exact hu.test

end

/-- SETN has no variant for the code 3 (R26, R213). -/
theorem Variant.ofCode_of_three_le {c : Nat} (h : 3 ≤ c) : Variant.ofCode c = none := by
  obtain ⟨d, rfl⟩ := Nat.exists_eq_add_of_le' h
  rfl

/-- A command in a healthy engine does what the test of its own rule says. -/
theorem exec_verdict {s : State} (h : s.Healthy) (i : Instr) :
    ∃ t, exec i s = .next t ∧ Verdict s i.opcode.byte (s.ownCause i) t := by
  cases i with
  | nop => exact ⟨_, exec_nop_healthy h, h, _, rfl⟩
  | rst => exact ⟨_, exec_rst s, rfl, _, rfl⟩
  | rdst => exact ⟨_, exec_rdst s, h, _, rfl⟩
  | setn c =>
    rw [State.ownCause]
    by_cases hc : 3 ≤ c
    · rw [if_pos hc, exec_setn_healthy h, Variant.ofCode_of_three_le hc]
      exact ⟨_, rfl, rfl⟩
    · obtain ⟨n, hn⟩ := Variant.ofCode_lt (Nat.lt_of_not_le hc)
      rw [if_neg hc]
      exact ⟨_, exec_setn_selects h hn, h, _, rfl⟩
  | ldh k v => exact ⟨_, exec_ldh_healthy h k v, Verdict.test ⟨h, _, rfl⟩⟩
  | ldt j v => exact ⟨_, exec_ldt_healthy h j v, by simpa using h, 0, by simp⟩
  | rdh k => exact ⟨_, exec_rdh_healthy h k, Verdict.test ⟨h, _, rfl⟩⟩
  | rdt j => exact ⟨_, exec_rdt_healthy h j, h, _, rfl⟩
  | wrb a b => exact ⟨_, exec_wrb_healthy h a b, Verdict.access ⟨h, _, rfl⟩⟩
  | wrw a v => exact ⟨_, exec_wrw_healthy h a v, Verdict.access ⟨h, _, rfl⟩⟩
  | rdb a => exact ⟨_, exec_rdb_healthy h a, Verdict.access ⟨h, _, rfl⟩⟩
  | rdw a => exact ⟨_, exec_rdw_healthy h a, Verdict.access ⟨h, _, rfl⟩⟩
  | sth a => exact ⟨_, exec_sth_healthy h a, Verdict.access ⟨by simpa using h, 0, by simp⟩⟩
  | proc p cnt add =>
    exact ⟨_, exec_proc_healthy h p cnt add, Verdict.test (Verdict.access ⟨by simpa using h, 0, by simp⟩)⟩

/-- A command whose own test fires takes that fault. -/
theorem exec_raises {s : State} (h : s.Healthy) {i : Instr} {c : Cause} (hc : s.ownCause i = some c) :
    exec i s = .next (s.raise c i.opcode.byte) := by
  obtain ⟨t, ht, hv⟩ := exec_verdict h i
  rw [hc] at hv
  rw [ht, hv]

/-! ### The cause read from the raw word -/

/-- Tests 1 and 2 of R217 fire exactly on the words that do not decode. -/
theorem firstCause_of_decode_error {s : State} {w : Command} {e : DecodeError} (hd : decode w = .error e) :
    firstCause s w = some .illegalCmd := by
  rw [firstCause]
  by_cases hlegal : opField w ∈ legalOps
  · obtain ⟨o, hop⟩ := mem_legalOps.mp hlegal
    have hbit : reservedBitSet w = true := (reservedBitSet_iff hop).mpr fun hr => by
      rw [decode_of_op hop, if_pos hr] at hd
      cases hd
    rw [if_neg (not_not.mpr hlegal), if_pos hbit]
  · rw [if_pos hlegal]

/-- On a word that decodes each later test of R217 picks its commands by `op`, and what it compares are the operands that
the command is decoded with. -/
theorem firstCause_of_decode_ok {s : State} {w : Command} {i : Instr} (hd : decode w = .ok i) :
    firstCause s w = s.ownCause i := by
  obtain ⟨o, hop, hr, rfl⟩ := decode_eq_ok.mp hd
  rw [firstCause, if_neg (not_not.mpr (mem_legalOps.mpr ⟨o, hop⟩)),
    if_neg ((reservedBitSet_iff hop).not.mpr (not_not.mpr hr))]
  simp only [accessBytes, hop]
  cases o with
  | nop | rst | rdst | ldt | rdt => rfl
  | setn =>
    have hcode : (idxField w).toNat % 4 = 3 ↔ 3 ≤ (idxField w).toNat % 4 := by omega
    simp [Opcode.byte, readOperands, State.ownCause, hcode]
  | ldh | rdh => simp [Opcode.byte, readOperands, State.ownCause]
  | wrb | wrw | rdb | rdw | sth => rfl
  | proc => simp [Opcode.byte, readOperands, State.ownCause, State.rangeCause]

/-! ### A fault pending -/

/-- Only the one word of RST and the one word of RDST run while a fault is pending (R219). -/
theorem step_faulted_refuses {s : State} {w : Command} {rest : List HostInput} (h : s.Presents w rest)
    (hf : s.fault = true) (hrdst : w ≠ mkCommand 0x02 0 0 0) (hrst : w ≠ mkCommand 0x01 0 0 0) :
    step s = .next (s.consume rest).refuse := by
  rw [step_command h]
  cases hd : decode w with
  | ok i =>
    obtain ⟨-, rfl⟩ := decodedWordsEncodeToThemselves w i hd
    exact exec_faulted (s := s.consume rest) hf (fun hi => hrst (hi ▸ rfl)) (fun hi => hrdst (hi ▸ rfl))
  | error e => exact illegalCommand_faulted (s := s.consume rest) hf w

/-- A command other than RST keeps a pending fault and its record. -/
theorem exec_keeps_fault {s : State} (hf : s.fault = true) {i : Instr} (hi : i ≠ .rst) :
    ∃ t, exec i s = .next t ∧ t.fault = true ∧ t.cause = s.cause ∧ t.fop = s.fop := by
  by_cases hs : i = .rdst
  · subst hs
    exact ⟨_, exec_rdst s, hf, rfl, rfl⟩
  · exact ⟨_, exec_faulted hf hi hs, hf, rfl, rfl⟩

theorem runCommands_keeps_fault {is : List Instr} {s : State} (hf : s.fault = true) (hrst : .rst ∉ is) :
    ∃ t, runCommands is s = .next t ∧ t.fault = true ∧ t.cause = s.cause ∧ t.fop = s.fop := by
  induction is generalizing s with
  | nil => exact ⟨s, rfl, hf, rfl, rfl⟩
  | cons i is ih =>
    obtain ⟨hi, his⟩ := not_or.mp (List.mem_cons.not.mp hrst)
    obtain ⟨u, hu, hfu, hcause, hfop⟩ := exec_keeps_fault hf (Ne.symm hi)
    rw [runCommands_cons hu, ← hcause, ← hfop]
    exact ih hfu his

/-! ### The obligations -/

/-- Settles O54: a word that does not decode is ILLEGAL_CMD, and one that does faults by its command's own test. -/
theorem firstFiringTestDecidesTheCause : Obligations.FirstFiringTestDecidesTheCause := by
  refine ⟨fun s w rest h hs => ?_, fun s w rest h hf => step_faulted_refuses h hf⟩
  cases hd : decode w with
  | ok i =>
    rw [stepRunsTheDecodedCommand s w rest i h hd, opField_of_decode hd, firstCause_of_decode_ok hd,
      ← s.ownCause_consume rest]
    exact exec_verdict (s := s.consume rest) hs i
  | error e =>
    rw [firstCause_of_decode_error hd]
    exact ⟨_, step_of_decode_error h hs hd, rfl⟩

/-- Settles O10: RDST and RST have no preamble, and no other word decodes to them. -/
theorem faultedEngineRefusesAllButRdstAndRst : Obligations.FaultedEngineRefusesAllButRdstAndRst := by
  intro s w rest h hf
  refine ⟨?_, ?_, step_faulted_refuses h hf⟩
  · rintro rfl
    exact stepRunsTheDecodedCommand s _ rest .rdst h (encodedCommandsDecodeToThemselves .rdst rfl)
  · rintro rfl
    exact stepRunsTheDecodedCommand s _ rest .rst h (encodedCommandsDecodeToThemselves .rst rfl)

/-- Settles O33: the test of the range is the own test of each of these commands. -/
theorem accessesOutOfRangeRaiseAddrRange : Obligations.AccessesOutOfRangeRaiseAddrRange := by
  intro s a hs
  refine ⟨fun hout => ⟨fun b => ?_, ?_⟩, fun hout => ⟨fun v => ?_, ?_⟩, fun hout => ?_, fun cnt add hcnt hout => ?_⟩
  · exact exec_raises (i := .wrb a b) hs (if_pos hout)
  · exact exec_raises (i := .rdb a) hs (if_pos hout)
  · exact exec_raises (i := .wrw a v) hs (if_pos hout)
  · exact exec_raises (i := .rdw a) hs (if_pos hout)
  · exact exec_raises (i := .sth a) hs (if_pos hout)
  · exact exec_proc_outOfRange hs hcnt hout add

/-- Settles O56, by the cases of one step: all but the two resets leave FAULT as it is. -/
theorem faultStaysUntilReset : Obligations.FaultStaysUntilReset := by
  intro s t hf hstep ht
  obtain ⟨-, rfl⟩ | ⟨rest, hp, rfl⟩ | ⟨w, rest, i, hp, hd, he⟩ | ⟨w, rest, e, -, -, hi⟩ := step_cases hstep
  · cases hf.symm.trans ht
  · exact ⟨⟨rest, .inr hp⟩, State.readH_clear s, rfl, rfl⟩
  · by_cases hrst : i = .rst
    · subst hrst
      cases he
      exact ⟨⟨rest, .inl (eq_mkCommand_of_decode_rst hd ▸ hp)⟩, State.readH_clear s, rfl, rfl⟩
    · obtain ⟨u, hu, hfu, -⟩ := exec_keeps_fault (s := s.consume rest) hf hrst
      cases he.symm.trans hu
      cases hfu.symm.trans ht
  · rw [illegalCommand_faulted (s := s.consume rest) hf] at hi
    cases hi
    cases hf.symm.trans ht

/-- Settles O58: the run ends with the fault it began with, and such a state is not final. -/
theorem faultedRunsWithoutRstNeverComplete : Obligations.FaultedRunsWithoutRstNeverComplete := by
  intro is s hf hrst
  obtain ⟨t, hrun, hft, hrecord⟩ := runCommands_keeps_fault hf hrst
  refine ⟨Option.eq_none_iff_forall_ne_some.mpr fun u hu => ?_, t, hrun, hft, hrecord⟩
  obtain ⟨hrun', hhealthy⟩ := completes_eq_some.mp hu
  cases hrun.symm.trans hrun'
  cases hft.symm.trans hhealthy

/-- Settles O11, the case of a step in which the port is empty. -/
theorem idleEngineStaysAsItIs : Obligations.IdleEngineStaysAsItIs := fun _ => step_idle

/-- Settles O55: the operation writes STATUS and the response, and a byte of block memory is read from neither. -/
theorem raisingAFaultWritesStatusOnly : Obligations.RaisingAFaultWritesStatusOnly :=
  fun _ _ _ => ⟨rfl, rfl, fun _ => rfl⟩

end Sys2Proof.Machine

/-! ## The family `70_reset_and_hazards.md`: the tweaks of the blocks of one PROC (R240) -/

namespace Sys2Proof.Machine

/-- The byte counter repeats no value within 65536 blocks: they advance it by less than 2^24 in all, so that its wrap
modulo 2^64 brings no value back (R173, R240). -/
theorem State.ubiBlocks_t0_ne (s : State) (p : Nat) {j k : Nat} {add : Byte} (hadd : add ≠ 0) (hjk : j < k)
    (hk : k < 65536) : (s.ubiBlocks p j add).t0 ≠ (s.ubiBlocks p k add).t0 := by
  intro heq
  have hpos : 0 < add.toNat := Nat.pos_of_ne_zero (BitVec.toNat_ne.mp hadd)
  have hbound : ∀ n < 65536, n * add.toNat < 2 ^ 64 := fun n hn =>
    (Nat.mul_lt_mul'' hn add.isLt).trans (by decide)
  have hmod : s.t0.toNat + j * add.toNat ≡ s.t0.toNat + k * add.toNat [MOD 2 ^ 64] := by
    rw [Nat.ModEq, ← State.ubiBlocks_t0 s p, ← State.ubiBlocks_t0 s p, heq]
  have hmul : j * add.toNat = k * add.toNat :=
    (Nat.ModEq.add_left_cancel' _ hmod).eq_of_lt_of_lt (hbound j (hjk.trans hk)) (hbound k hk)
  exact hjk.ne (Nat.eq_of_mul_eq_mul_right hpos hmul)

/-! ### The obligation -/

/-- Settles O40: each block runs under the counter before it advanced by the same ADD, and the counters before two
blocks differ. -/
theorem blocksOfOneProcHaveDistinctTweaks : Obligations.BlocksOfOneProcHaveDistinctTweaks := by
  intro s p j k add hadd hjk hk
  rw [State.advanceT0_t0, State.advanceT0_t0, add64, add64, Ne, BitVec.add_left_inj]
  exact s.ubiBlocks_t0_ne p hadd hjk hk

end Sys2Proof.Machine
